-- ==== Sys2Proof/Word.lean ====
section
/-! DEFINITION. The two bit-vector widths of the machine (R5): 8 bits for a cell, `A`, `B` and `IR`,
4 bits for an address, `PC`, `MAR` and each half of an instruction byte. -/

namespace Sys2Proof

/-- An 8-bit unsigned value: a memory cell, `A`, `B`, `IR` (R5, R7). -/
abbrev Byte := BitVec 8

/-- A 4-bit unsigned value: an address, `PC`, `MAR`, an opcode or an operand field (R5, R7). -/
abbrev Nibble := BitVec 4

end Sys2Proof
end

