-- ==== Sys2Proof/Syntax.lean ====
section
/-! DEFINITION. The instructions: one constructor per row of spec/opcode_table.json (R73). -/

namespace Sys2Proof

/-- The sixteen rows of the opcode map. An operand is the 4-bit field of the byte (R72). `nop`, `out`
and `hlt` ignore theirs and carry none, as the decoder of R81 gives them. The six undefined rows keep
the operand nibble, which is part of the byte InvalidInstruction carries (R72 "carried", R143). -/
inductive Instr where
  /-- NOP, opcode 0 (R140) -/
  | nop
  /-- LDA address, opcode 1 (R110) -/
  | lda (x : Nibble)
  /-- ADD address, opcode 2 (R120) -/
  | add (x : Nibble)
  /-- SUB address, opcode 3 (R121) -/
  | sub (x : Nibble)
  /-- STA address, opcode 4 (R111) -/
  | sta (x : Nibble)
  /-- OUT, opcode 5 (R141) -/
  | out
  /-- JMP target, opcode 6 (R130) -/
  | jmp (x : Nibble)
  /-- LDI immediate, opcode 7 (R112) -/
  | ldi (x : Nibble)
  /-- JC target, opcode 8 (R131) -/
  | jc (x : Nibble)
  /-- HLT, opcode 15 (R142) -/
  | hlt
  /-- the undefined opcode 9 (R143) -/
  | undefined9 (x : Nibble)
  /-- the undefined opcode 10 (R143) -/
  | undefined10 (x : Nibble)
  /-- the undefined opcode 11 (R143) -/
  | undefined11 (x : Nibble)
  /-- the undefined opcode 12 (R143) -/
  | undefined12 (x : Nibble)
  /-- the undefined opcode 13 (R143) -/
  | undefined13 (x : Nibble)
  /-- the undefined opcode 14 (R143) -/
  | undefined14 (x : Nibble)
deriving DecidableEq, Repr

end Sys2Proof
end

