-- ==== Sys2Proof/Decode.lean ====
section
/-! DEFINITION. Decoding and encoding: the one format OP4 (R71), the opcode map (R73), the total
decoder (R81) and the encoder. -/

namespace Sys2Proof

/-- The opcode field: `byte div 16`, bits 7 to 4 (R29, R71). -/
def opcodeOf (b : Byte) : Nibble := BitVec.ofNat 4 (b.toNat / 16)

/-- The operand field: `byte mod 16`, bits 3 to 0, extracted for every opcode (R29, R71, R72). -/
def operandOf (b : Byte) : Nibble := BitVec.ofNat 4 (b.toNat % 16)

/-- The byte with the given fields: `opcode * 16 + operand` (R71). -/
def joinFields (op x : Nibble) : Byte := BitVec.ofNat 8 (op.toNat * 16 + x.toNat)

/-- `OPCODE_MAP` (R6, R73): position `n` is what opcode nibble `n` selects, as a function of the
operand nibble. DESIGN CHOICE of the spec (D20, C1): OUT is 5, and 14 is undefined; log entry 5. -/
def opcodeMap : Vector (Nibble → Instr) 16 :=
  #v[fun _ => .nop, .lda, .add, .sub, .sta, fun _ => .out, .jmp, .ldi, .jc,
     .undefined9, .undefined10, .undefined11, .undefined12, .undefined13, .undefined14,
     fun _ => .hlt]

/-- The decoder of R81, total on all 256 bytes: the opcode nibble alone selects the row. -/
def decodeByte (b : Byte) : Instr :=
  (opcodeMap[(opcodeOf b).toNat]'(opcodeOf b).isLt) (operandOf b)

/-- Why a list of bytes is not an instruction. -/
inductive DecodeError where
  /-- there is no byte to decode; with one byte present nothing can go wrong (R76) -/
  | noByte
deriving DecidableEq, Repr

/-- Decoding from a list of bytes: the instruction is the first byte (R70), the rest is left over. -/
def decodeBytes : List Byte → Except DecodeError (Instr × List Byte)
  | [] => .error .noByte
  | b :: rest => .ok (decodeByte b, rest)

/-- The opcode nibble of each instruction, written from R73's table. -/
def Instr.opcode : Instr → Nibble
  | .nop => 0
  | .lda _ => 1
  | .add _ => 2
  | .sub _ => 3
  | .sta _ => 4
  | .out => 5
  | .jmp _ => 6
  | .ldi _ => 7
  | .jc _ => 8
  | .undefined9 _ => 9
  | .undefined10 _ => 10
  | .undefined11 _ => 11
  | .undefined12 _ => 12
  | .undefined13 _ => 13
  | .undefined14 _ => 14
  | .hlt => 15

/-- The operand nibble of an instruction's canonical encoding: 0 where it is ignored (R75, D13). -/
def Instr.operandField : Instr → Nibble
  | .nop | .out | .hlt => 0
  | .lda x | .add x | .sub x | .sta x | .jmp x | .ldi x | .jc x => x
  | .undefined9 x | .undefined10 x | .undefined11 x => x
  | .undefined12 x | .undefined13 x | .undefined14 x => x

/-- The canonical encoding (R71, R75). -/
def encode (i : Instr) : Byte := joinFields i.opcode i.operandField

/-- The bytes of an instruction, the first at the lowest address: there is one (R70). -/
def encodeBytes (i : Instr) : List Byte := [encode i]

/-- The bytes of a table word, first byte lowest: byte `k` is bits `8k+7` to `8k` of `w`. At least one
byte, the length of every instruction; bits above `nbits` are 0. -/
def tableWordBytes (nbits w : Nat) : List Byte :=
  (List.range (max 1 (nbits / 8))).map fun k => BitVec.ofNat 8 (w % 2 ^ nbits / 2 ^ (8 * k))

/-- The instruction the decoder reads from a table word: all of its bytes must belong to it (R70). -/
def decodeTableWord (nbits w : Nat) : Option Instr :=
  match decodeBytes (tableWordBytes nbits w) with
  | .ok (i, []) => some i
  | .ok (_, _ :: _) => none
  | .error _ => none

end Sys2Proof
end

