-- ==== Sys2Proof/Config.lean ====
section
/-! DEFINITION. The sizes the spec fixes (R5) and the options the host chooses (R6).

The other two parameters of R6 stand where a repair can reach them: `MAR_MIRRORS_DATA_ACCESS` is
`Sys2Proof.Machine.marMirrorsDataAccess` (Machine/Ops.lean) and `OPCODE_MAP` is
`Sys2Proof.opcodeMap` (Decode.lean). The machine has no free value: the spec leaves no result
undefined (93_implementation_defined.md, part 1). -/

namespace Sys2Proof

/-- `MEM_CELLS`: the number of memory cells (R5). -/
abbrev Config.memCells : Nat := 16

/-- The two parameters R6 calls free: no state of the engine depends on either, so they are
arguments of the host-side functions (Machine/Trace.lean, Machine/HostInterface.lean) and statements
about those hold for every value. -/
structure Config.HostOptions where
  /-- `TRACE_SINK_PRESENT` (R102, D10) -/
  traceSinkPresent : Bool
  /-- `PAUSE_MODE` (R103, D11) -/
  pauseMode : Bool
deriving DecidableEq, Repr

end Sys2Proof
end

