-- ==== Sys2Proof/Machine/State.lean ====
section
/-! DEFINITION. The state of the engine: the eight elements of R20 and the output history of R35, as
plain data; the reasons a step can stop; the state after reset (R32). -/

namespace Sys2Proof.Machine

/-- The cycle controller's five values (R28, R90). -/
inductive Phase where
  /-- about to fetch; the phase between instruction steps -/
  | fetch
  /-- `IR` is loaded, `PC` already incremented -/
  | decode
  /-- the instruction in `IR` is about to take effect -/
  | execute
  /-- terminal: HLT was executed; the normal end of a run (R99, R100) -/
  | halted
  /-- terminal: an undefined opcode was executed (R99) -/
  | faulted
deriving DecidableEq, Repr

/-- The two conditions the engine signals, both terminal (R170). Neither has storage of its own:
Halt's payload is `PC` and InvalidInstruction's is `IR` (R31, R171, R172). -/
inductive Condition where
  /-- raised by HLT (R171) -/
  | halt
  /-- raised by the opcode nibbles 9 to 14 (R172) -/
  | invalidInstruction
deriving DecidableEq, Repr

/-- Memory as the list of the cells that do not read as `Memory.unlisted`. -/
abbrev Memory := List Host.Cell

/-- What an unlisted cell reads as: 0, the reset value of every cell (R27, R32, R63). -/
def Memory.unlisted : Byte := 0

/-- The canonical form: cell numbers strictly rising, each one of the 16 cells, and no entry equal to
what an unlisted cell reads as. Equal memories are then equal lists. -/
abbrev Memory.wf (m : Memory) : Prop :=
  m.Pairwise (fun c d => c.1 < d.1) ∧ ∀ c ∈ m, c.1 < Config.memCells ∧ c.2 ≠ Memory.unlisted

/-- The engine's state (R20) with the output history beside it (R35). There is no other state (R31). -/
structure State where
  /-- `A`, the accumulator (R21) -/
  a : Byte
  /-- `B`, the scratch register, second ALU input (R22) -/
  b : Byte
  /-- `PC`, the program counter (R23) -/
  pc : Nibble
  /-- `MAR`, the memory address register (R24) -/
  mar : Nibble
  /-- `IR`, the instruction register (R25) -/
  ir : Byte
  /-- `CARRY`, the machine's only flag; `true` is 1 (R26) -/
  carry : Bool
  /-- `MEM`, the 16 cells (R27) -/
  mem : Memory
  /-- `PHASE`, the cycle controller (R28) -/
  phase : Phase
  /-- `OUT_LOG`, the values OUT has emitted, oldest first; no instruction reads it (R35) -/
  outLog : List Byte
deriving DecidableEq, Repr

/-- The machine right after reset, which is construction: every register and cell 0, `CARRY` 0,
`PHASE` FETCH, nothing output (R32, R151, R190). -/
def State.reset : State where
  a := 0
  b := 0
  pc := 0
  mar := 0
  ir := 0
  carry := false
  mem := []
  phase := .fetch
  outLog := []

/-- Why `step` gives no next state. No instruction raises one: HLT and the undefined opcodes take their
conditions in a next state. -/
inductive Fault where
  /-- Raised by `step` alone, when a further step is asked of a machine whose `PHASE` is HALTED: no step
  exists there (R99, U8, N19). Safe: the model stops where the source says nothing (log entry 2). -/
  | noStepFromHalted
  /-- Raised by `step` alone, when a further step is asked of a machine whose `PHASE` is FAULTED: no step
  exists there (R99, U8, N19). Safe, as above (log entry 2). -/
  | noStepFromFaulted
deriving DecidableEq, Repr

/-- Why an instruction has no meaning in the model. -/
inductive Refusal where
  /-- The instruction is not modelled. Raised by nobody: every arm of `exec` has its meaning. It would be
  safe: the model would stop where the hardware goes on. -/
  | notModelled (mnemonic : String)
deriving DecidableEq, Repr

end Sys2Proof.Machine
end

