-- ==== Sys2Proof/Machine/Ops.lean ====
section
/-! DEFINITION. The named operations over registers and memory: one write per state element, the two
memory primitives (R52), the address decoder (R51), the increment of `PC` (R91), the output event
(R157), taking a condition (R175), and the end of an EXECUTE phase (R94). -/

namespace Sys2Proof.Machine

/-! ### Register writes: `x <- v` of R9, one per element -/

/-- `A <- v` (R21) -/
def State.setA (s : State) (v : Byte) : State := { s with a := v }
/-- `B <- v` (R22) -/
def State.setB (s : State) (v : Byte) : State := { s with b := v }
/-- `PC <- v` (R23) -/
def State.setPc (s : State) (v : Nibble) : State := { s with pc := v }
/-- `MAR <- v` (R24) -/
def State.setMar (s : State) (v : Nibble) : State := { s with mar := v }
/-- `IR <- v` (R25) -/
def State.setIr (s : State) (v : Byte) : State := { s with ir := v }
/-- `CARRY <- v` (R26) -/
def State.setCarry (s : State) (v : Bool) : State := { s with carry := v }
/-- the memory replaced (R27) -/
def State.setMem (s : State) (v : Memory) : State := { s with mem := v }
/-- `PHASE <- v` (R28) -/
def State.setPhase (s : State) (v : Phase) : State := { s with phase := v }
/-- the output history replaced (R35) -/
def State.setOutLog (s : State) (v : List Byte) : State := { s with outLog := v }

/-! ### Memory -/

/-- The address decoder: any integer selects the cell `addr mod 16` (R51). `%` on `Int` with a positive
modulus is the floor-mod of R9. -/
def cellIndex (addr : Int) : Nat := (addr % (Config.memCells : Int)).toNat

/-- The content of cell `k`. -/
def memLookup : Memory → Nat → Byte
  | [], _ => Memory.unlisted
  | c :: rest, k => if c.1 = k then c.2 else memLookup rest k

/-- A new entry put in its place in the rising order. -/
def memInsert (k : Nat) (v : Byte) : Memory → Memory
  | [] => [(k, v)]
  | c :: rest => if k < c.1 then (k, v) :: c :: rest else c :: memInsert k v rest

/-- Cell `k` becomes `v`: the old entry goes, and a new one comes unless `v` is what an unlisted cell
reads as. -/
def memStore (m : Memory) (k : Nat) (v : Byte) : Memory :=
  let others := m.filter fun c => c.1 != k
  if v = Memory.unlisted then others else memInsert k v others

/-- `MemRead(addr, 1)`: the cell `addr mod 16` (R52). It cannot fault. -/
def memRead (m : Memory) (addr : Int) : Byte := memLookup m (cellIndex addr)

/-- `MemWrite(addr, 1, v)`: the cell `addr mod 16` becomes `v mod 256` (R52). It cannot fault. -/
def memWrite (m : Memory) (addr v : Int) : Memory := memStore m (cellIndex addr) (BitVec.ofInt 8 v)

/-- The content of the cell with a 4-bit address, as the engine reads it (R51). -/
def State.cell (s : State) (x : Nibble) : Byte := memRead s.mem x.toNat

/-- The engine's store to a cell with a 4-bit address (R52). -/
def State.storeCell (s : State) (x : Nibble) (v : Byte) : State :=
  s.setMem (memWrite s.mem x.toNat v.toNat)

/-- `MAR_MIRRORS_DATA_ACCESS` (R6, R24): DESIGN CHOICE of the spec, D2; log entry 4. -/
def marMirrorsDataAccess : Bool := true

/-- The address of a data access goes into `MAR` (R24, R113, D2). -/
def State.latchDataAddress (s : State) (x : Nibble) : State :=
  if marMirrorsDataAccess then s.setMar x else s

/-! ### The cycle's own operations -/

/-- `(pc + 1) mod 16`: the wrap at 15 is silent (R23, R91, R122). -/
def nextAddress (pc : Nibble) : Nibble := BitVec.ofNat 4 ((pc.toNat + 1) % 16)

/-- The FETCH phase (R91): `MAR <- PC`; `IR <- MEM[MAR]`; `PC <- (PC + 1) mod 16`; `PHASE <- DECODE`. -/
def fetchPhase (s : State) : State :=
  let s1 := s.setMar s.pc
  let s2 := s1.setIr (s1.cell s1.mar)
  (s2.setPc (nextAddress s2.pc)).setPhase .decode

/-- The DECODE phase (R92): it writes `PHASE` only; the fields are functions of `IR` (R29). -/
def decodePhase (s : State) : State := s.setPhase .execute

/-- The phase after EXECUTE, by opcode nibble (R94). -/
def nextPhase (op : Nibble) : Phase :=
  if op.toNat = 15 then .halted
  else if 9 ≤ op.toNat ∧ op.toNat ≤ 14 then .faulted
  else .fetch

/-- The end of an EXECUTE phase that raised nothing: back to FETCH (R94). -/
def State.backToFetch (s : State) : State := s.setPhase .fetch

/-- The phase a condition enters (R170). -/
def Condition.phase : Condition → Phase
  | .halt => .halted
  | .invalidInstruction => .faulted

/-- Taking a condition (R175): `PHASE` becomes the condition's and nothing else changes. Nothing is saved,
there is no handler and no mode, and the payload is read from `PC` or `IR`, which are frozen from here on
(R171, R172). There is no return from either condition, so none stands beside this (R177). -/
def State.raise (s : State) (c : Condition) : State := s.setPhase c.phase

/-- `Emit(v)`: the value is appended to the output history (R11, R157). -/
def State.emit (s : State) (v : Byte) : State := s.setOutLog (s.outLog ++ [v])

end Sys2Proof.Machine
end

