-- ==== Sys2Proof/Machine/Flags.lean ====
section
/-! DEFINITION. The arithmetic of the ALU and its one flag: the exact integer result first, then the
narrowed value and the carry taken from it (R120, R121, R122). `CARRY` is never an input (R26). -/

namespace Sys2Proof.Machine

/-- `sum = A + B`, exact, 0 to 510 (R120). -/
def exactSum (a m : Byte) : Int := (a.toNat : Int) + (m.toNat : Int)

/-- `diff = A - B`, exact, -255 to 255 (R121). -/
def exactDiff (a m : Byte) : Int := (a.toNat : Int) - (m.toNat : Int)

/-- A result brought back into 0 to 255: `t mod 256`, floor-mod (R9, R122). -/
def narrow (t : Int) : Byte := BitVec.ofInt 8 t

/-- `CARRY` after ADD: 1 exactly when the sum is 256 or more (R120). -/
def carryOfSum (t : Int) : Bool := decide (256 ≤ t)

/-- `CARRY` after SUB: 1 exactly when the difference is negative, a borrow (R121, D19). -/
def carryOfDiff (t : Int) : Bool := decide (t < 0)

end Sys2Proof.Machine
end

