-- ==== Sys2Proof/Machine/Operands.lean ====
section
/-! DEFINITION. The operand forms of R72: a data address, a jump target, an immediate. An ignored operand
and one carried in `IR` need no operation. -/

namespace Sys2Proof.Machine

/-- Direct absolute addressing, the only data addressing mode: the address is the operand field (R113). -/
def dataAddress (x : Nibble) : Nibble := x

/-- An absolute jump target: the operand field itself (R72, R130). -/
def jumpTarget (x : Nibble) : Nibble := x

/-- LDI's immediate: the operand zero-extended to 8 bits (R72, R112). -/
def immediate (x : Nibble) : Byte := BitVec.ofNat 8 x.toNat

/-- A data load: `MAR` takes the address, and the cell's content is the value (R52, R113). -/
def loadData (x : Nibble) (s : State) : Byte × State :=
  (s.cell (dataAddress x), s.latchDataAddress (dataAddress x))

/-- A data store: `MAR` takes the address, and the cell takes the value (R52, R113). -/
def storeData (x : Nibble) (v : Byte) (s : State) : State :=
  (s.latchDataAddress (dataAddress x)).storeCell (dataAddress x) v

end Sys2Proof.Machine
end

