-- ==== Sys2Proof/Machine/Arithmetic.lean ====
section
/-! DEFINITION. ADD and SUB (42_arithmetic.md): the EXECUTE phase of each. -/

namespace Sys2Proof.Machine

/-- ADD: `MAR <- operand`; `B <- MEM[operand]`; `A <- sum mod 256`; `CARRY <- sum >= 256`, where
`sum = A + B` with the `A` before the instruction (R120). -/
def execAdd (x : Nibble) (s : State) : Host.Outcome State Fault Refusal :=
  let r := loadData x s
  let s1 := r.2.setB r.1
  let sum := exactSum s1.a s1.b
  .next ((s1.setA (narrow sum)).setCarry (carryOfSum sum)).backToFetch

/-- SUB: `MAR <- operand`; `B <- MEM[operand]`; `A <- diff mod 256`; `CARRY <- diff < 0`, where
`diff = A - B` with the `A` before the instruction and the `B` just loaded (R121, C5). -/
def execSub (x : Nibble) (s : State) : Host.Outcome State Fault Refusal :=
  let r := loadData x s
  let s1 := r.2.setB r.1
  let diff := exactDiff s1.a s1.b
  .next ((s1.setA (narrow diff)).setCarry (carryOfDiff diff)).backToFetch

end Sys2Proof.Machine
end

