-- ==== Sys2Proof/Machine/ControlTransfer.lean ====
section
/-! DEFINITION. JMP and JC (43_control_transfer.md): the EXECUTE phase of each. `PC` already holds the
instruction address plus one (R91). -/

namespace Sys2Proof.Machine

/-- JMP: `PC <- operand` (R130). -/
def execJmp (x : Nibble) (s : State) : Host.Outcome State Fault Refusal :=
  .next (s.setPc (jumpTarget x)).backToFetch

/-- JC: `PC <- operand` if `CARRY = 1`, else nothing; the flag is not cleared by being tested (R131). -/
def execJc (x : Nibble) (s : State) : Host.Outcome State Fault Refusal :=
  .next (if s.carry then s.setPc (jumpTarget x) else s).backToFetch

end Sys2Proof.Machine
end

