-- ==== Sys2Proof/Machine/DataMovement.lean ====
section
/-! DEFINITION. LDA, STA and LDI (41_data_movement.md): the EXECUTE phase of each. -/

namespace Sys2Proof.Machine

/-- LDA: `MAR <- operand`; `A <- MEM[operand]`; no flag (R110). -/
def execLda (x : Nibble) (s : State) : Host.Outcome State Fault Refusal :=
  let r := loadData x s
  .next (r.2.setA r.1).backToFetch

/-- STA: `MAR <- operand`; `MEM[operand] <- A`; no flag (R111). -/
def execSta (x : Nibble) (s : State) : Host.Outcome State Fault Refusal :=
  .next (storeData x s.a s).backToFetch

/-- LDI: `A <- zext_8(operand)`; no data access, no flag (R112). -/
def execLdi (x : Nibble) (s : State) : Host.Outcome State Fault Refusal :=
  .next (s.setA (immediate x)).backToFetch

end Sys2Proof.Machine
end

