-- ==== Sys2Proof/Machine/System.lean ====
section
/-! DEFINITION. NOP, OUT, HLT and the six undefined opcodes (44_system.md): the EXECUTE phase of each. -/

namespace Sys2Proof.Machine

/-- NOP: nothing but the end of the phase (R140). -/
def execNop (s : State) : Host.Outcome State Fault Refusal :=
  .next s.backToFetch

/-- OUT: `Emit(A)`; no register changes and nothing is waited for (R141). -/
def execOut (s : State) : Host.Outcome State Fault Refusal :=
  .next (s.emit s.a).backToFetch

/-- HLT: the Halt condition is taken, carrying `PC`, already incremented (R142). -/
def execHlt (s : State) : Host.Outcome State Fault Refusal :=
  .next (s.raise .halt)

/-- Opcode nibble 9: InvalidInstruction is taken, carrying `IR` (R143). -/
def execUndefined9 (_operand : Nibble) (s : State) : Host.Outcome State Fault Refusal :=
  .next (s.raise .invalidInstruction)

/-- Opcode nibble 10: InvalidInstruction is taken, carrying `IR` (R143). -/
def execUndefined10 (_operand : Nibble) (s : State) : Host.Outcome State Fault Refusal :=
  .next (s.raise .invalidInstruction)

/-- Opcode nibble 11: InvalidInstruction is taken, carrying `IR` (R143). -/
def execUndefined11 (_operand : Nibble) (s : State) : Host.Outcome State Fault Refusal :=
  .next (s.raise .invalidInstruction)

/-- Opcode nibble 12: InvalidInstruction is taken, carrying `IR` (R143). -/
def execUndefined12 (_operand : Nibble) (s : State) : Host.Outcome State Fault Refusal :=
  .next (s.raise .invalidInstruction)

/-- Opcode nibble 13: InvalidInstruction is taken, carrying `IR` (R143). -/
def execUndefined13 (_operand : Nibble) (s : State) : Host.Outcome State Fault Refusal :=
  .next (s.raise .invalidInstruction)

/-- Opcode nibble 14: InvalidInstruction is taken, carrying `IR` (R143). -/
def execUndefined14 (_operand : Nibble) (s : State) : Host.Outcome State Fault Refusal :=
  .next (s.raise .invalidInstruction)

end Sys2Proof.Machine
end

