-- ==== Sys2Proof/Machine/Dispatch.lean ====
section
/-! DEFINITION. The dispatch of the EXECUTE phase, one arm per instruction, no default arm (R93). It is
the EXECUTE effect alone: FETCH and DECODE have run before it, in `step`. -/

namespace Sys2Proof.Machine

def exec (i : Instr) (s : State) : Host.Outcome State Fault Refusal :=
  match i with
  | .nop => Sys2Proof.Machine.execNop s
  | .lda x => Sys2Proof.Machine.execLda x s
  | .add x => Sys2Proof.Machine.execAdd x s
  | .sub x => Sys2Proof.Machine.execSub x s
  | .sta x => Sys2Proof.Machine.execSta x s
  | .out => Sys2Proof.Machine.execOut s
  | .jmp x => Sys2Proof.Machine.execJmp x s
  | .ldi x => Sys2Proof.Machine.execLdi x s
  | .jc x => Sys2Proof.Machine.execJc x s
  | .hlt => Sys2Proof.Machine.execHlt s
  | .undefined9 x => Sys2Proof.Machine.execUndefined9 x s
  | .undefined10 x => Sys2Proof.Machine.execUndefined10 x s
  | .undefined11 x => Sys2Proof.Machine.execUndefined11 x s
  | .undefined12 x => Sys2Proof.Machine.execUndefined12 x s
  | .undefined13 x => Sys2Proof.Machine.execUndefined13 x s
  | .undefined14 x => Sys2Proof.Machine.execUndefined14 x s

end Sys2Proof.Machine
end

