-- ==== Sys2Proof/Machine/Cycle.lean ====
section
/-! DEFINITION. The cycle controller (40_cycle.md): the EXECUTE phase, the machine at the grain of one
phase (R90 to R94), and at the grain of one instruction (R96). -/

namespace Sys2Proof.Machine

/-- The EXECUTE phase (R93): the instruction in `IR` takes effect. -/
def executePhase (s : State) : Host.Outcome State Fault Refusal := exec (decodeByte s.ir) s

/-- One transition of the five-state controller (R90). There is none from the terminal phases (R99). -/
def phaseStep (s : State) : Host.Outcome State Fault Refusal :=
  match s.phase with
  | .fetch => .next (fetchPhase s)
  | .decode => .next (decodePhase s)
  | .execute => executePhase s
  | .halted => .fault .noStepFromHalted
  | .faulted => .fault .noStepFromFaulted

/-- One instruction step (R96): FETCH, DECODE and EXECUTE composed. In a state inside a pass, which no
instruction step leaves behind (R28), the phases still to come are run; log entry 1. -/
def instructionStep (s : State) : Host.Outcome State Fault Refusal :=
  match s.phase with
  | .fetch => executePhase (decodePhase (fetchPhase s))
  | .decode => executePhase (decodePhase s)
  | .execute => executePhase s
  | .halted => .fault .noStepFromHalted
  | .faulted => .fault .noStepFromFaulted

end Sys2Proof.Machine
end

