-- ==== Sys2Proof/Machine/Step.lean ====
section
/-! DEFINITION. The step of the machine, one whole instruction (R96, D1), and the placing of an instruction
where the next step fetches it. -/

namespace Sys2Proof.Machine

/-- One instruction step (R96). -/
def step (s : State) : Host.Outcome State Fault Refusal := instructionStep s

/-- The byte of a table word stored in the cell `PC` points at, and `PHASE` FETCH, so that the next step
fetches and runs it. It stands for the host's image load (R152, R193); log entry 14. -/
def State.withFetchWord (s : State) (nbits w : Nat) : State :=
  (s.storeCell s.pc (BitVec.ofNat 8 (w % 2 ^ nbits))).setPhase .fetch

end Sys2Proof.Machine
end

