-- ==== Sys2Proof/Assembly.lean ====
section
/-! DEFINITION. The line notation in which the spec writes memory images (R77, R78): data types only.
Their numbers are plain `Nat`s, so a line can be out of range: WellFormed.lean holds the checks and
Machine/Assembler.lean the translation into bytes. It is a way of writing images, not a toolchain. -/

namespace Sys2Proof

/-- The ten mnemonics of R73, which are all there are (R79, R145). -/
inductive Mnemonic where
  | nop | lda | add | sub | sta | out | jmp | ldi | jc | hlt
deriving DecidableEq, Repr

/-- A statement of R78. -/
inductive Stmt where
  /-- `mnemonic1 operand`: LDA ADD SUB STA JMP LDI JC -/
  | withOperand (m : Mnemonic) (operand : Nat)
  /-- `mnemonic0`: NOP OUT HLT, encoded with operand nibble 0 -/
  | plain (m : Mnemonic)
  /-- `.byte value`: a data cell or a raw byte -/
  | byte (value : Nat)
deriving DecidableEq, Repr

/-- A line `addr ":" statement` of R78. -/
structure Line where
  addr : Nat
  stmt : Stmt
deriving DecidableEq, Repr

end Sys2Proof
end

