-- ==== Sys2Proof/Machine/HostInterface.lean ====
section
/-! DEFINITION. What the host does to the engine and what it gets back (45_host_interface.md,
70_reset_and_hazards.md): construction, image load, launch, snapshot, reports, the run loop, pause.
None of these is an instruction, and none can happen inside an instruction step (R58, R103). -/

namespace Sys2Proof.Machine

/-- `set_memory(address, value)`, before the run only: the cell `address mod 16` becomes `value mod 256`,
for any integers (R152, R153). DESIGN CHOICE of the spec out of range, D5; log entry 8. -/
def setMemory (addr v : Int) (s : State) : State := s.setMem (memWrite s.mem addr v)

/-- The image installed in order: a cell written twice keeps the last value (R152). -/
def installImage (img : List (Int × Int)) (s : State) : State :=
  img.foldl (fun t c => setMemory c.1 c.2 t) s

/-- `launch(img)`, the state in which a run begins: the reset state with the image installed (R193). -/
def launch (img : List (Int × Int)) : State := installImage img State.reset

/-- The read-only view of all registers and memory (R154). The output history is no part of it (R35).
`PHASE` is left out of it: DESIGN CHOICE of the model, since the source does not say whether it is in (R154,
N10) and U10 calls that a parameter of the host interface; log entry 21. -/
structure Snapshot where
  a : Byte
  b : Byte
  pc : Nibble
  mar : Nibble
  ir : Byte
  carry : Bool
  /-- `MEM[0]` to `MEM[15]` -/
  cells : Vector Byte 16
deriving DecidableEq, Repr

/-- `snapshot()`, in any phase, changing nothing (R154). -/
def State.snapshot (s : State) : Snapshot where
  a := s.a
  b := s.b
  pc := s.pc
  mar := s.mar
  ir := s.ir
  carry := s.carry
  cells := Vector.ofFn fun k => memRead s.mem (k.val : Int)

/-- The two terminal reports, with their payloads (R158, R170). -/
inductive Report where
  /-- Halt, carrying the 4-bit `PC`, already incremented (R171) -/
  | halt (pc : Nibble)
  /-- InvalidInstruction, carrying the 8-bit `IR` (R172) -/
  | invalidInstruction (ir : Byte)
deriving DecidableEq, Repr

/-- The opcode attempted, which the InvalidInstruction report names: `IR div 16` (R158, R172). -/
def Report.opcodeAttempted : Report → Option Nibble
  | .halt _ => none
  | .invalidInstruction ir => some (opcodeOf ir)

/-- The report due in a state: the outcome of R96 read from the state a step leaves, `none` being
Continue. The payload is read from `PC` or `IR`, which have no other storage (R31). -/
def State.report (s : State) : Option Report :=
  match s.phase with
  | .halted => some (.halt s.pc)
  | .faulted => some (.invalidInstruction s.ir)
  | .fetch | .decode | .execute => none

/-- The run loop of R98 for at most `n` steps: the state reached, and the report if the run ended. Running
out of steps is the caller ceasing to iterate: no report, and nothing about the hardware (R100, R101). A run
begins with `PHASE = FETCH` (R98); asked of a terminal state there is no step and so no report (log entry 2). -/
def runLoop : Nat → State → State × Option Report
  | 0, s => (s, none)
  | n + 1, s =>
    match step s with
    | .next t =>
      match t.report with
      | some r => (t, some r)
      | none => runLoop n t
    | .fault _ => (s, none)
    | .refused _ => (s, none)

/-- One turn in pause mode: between instruction steps the engine holds all state until it is acknowledged,
and then performs one step (R103, R160). DESIGN CHOICE of the spec, D11; log entry 11. -/
def pausedStep (pauseMode ack : Bool) (s : State) : Host.Outcome State Fault Refusal :=
  if pauseMode && !ack && s.phase = .fetch then .next s else step s

/-- A run in turns, each with the acknowledgement the host gives or withholds. -/
def pausedRun (pauseMode : Bool) : List Bool → State → Host.Outcome State Fault Refusal
  | [], s => .next s
  | ack :: rest, s =>
    match pausedStep pauseMode ack s with
    | .next t => pausedRun pauseMode rest t
    | .fault r => .fault r
    | .refused r => .refused r

/-- The run loop of R98 with its wait: in each turn the engine waits or performs one step, and the first
report ends the run, whatever acknowledgements are left. -/
def pausedRunLoop (pauseMode : Bool) : List Bool → State → State × Option Report
  | [], s => (s, none)
  | ack :: rest, s =>
    match pausedStep pauseMode ack s with
    | .next t =>
      match t.report with
      | some r => (t, some r)
      | none => pausedRunLoop pauseMode rest t
    | .fault _ => (s, none)
    | .refused _ => (s, none)

end Sys2Proof.Machine
end

