-- ==== Sys2Proof/WellFormed.lean ====
section
/-! DEFINITION. What a term must meet to stand for something the spec names.

An `Instr` has nothing to check: its only fields are operand nibbles, which are 4 bits wide by type,
and every nibble is a legal operand of every instruction (R72). The checks with content are those on
the lines of R78, whose numbers are unbounded in the data. -/

namespace Sys2Proof

/-- Every `Instr` is well formed: "no operand value is out of range for any instruction" (R72). -/
def Instr.wellFormed (_ : Instr) : Bool := true

/-- Does the mnemonic take an operand (R72, R78)? -/
def Mnemonic.takesOperand : Mnemonic → Bool
  | .lda | .add | .sub | .sta | .jmp | .ldi | .jc => true
  | .nop | .out | .hlt => false

/-- A statement of R78: an operand only where the mnemonic takes one, and in 0 to 15; none where it
does not; a `.byte` value in 0 to 255. -/
def Stmt.wellFormed : Stmt → Bool
  | .withOperand m n => m.takesOperand && decide (n < 16)
  | .plain m => !m.takesOperand
  | .byte v => decide (v < 256)

/-- A line of R78: the address names one of the 16 cells, and the statement is well formed. -/
def Line.wellFormed (l : Line) : Bool :=
  decide (l.addr < Config.memCells) && l.stmt.wellFormed

end Sys2Proof
end

