-- ==== Sys2Proof/Machine/Assembler.lean ====
section
/-! DEFINITION. The bytes that the lines of R78 stand for: mnemonic with operand `n` is `opcode * 16 + n`,
mnemonic alone is `opcode * 16`, `.byte v` is `v`; a cell with no line is 0. -/

namespace Sys2Proof.Machine

/-- The instruction a mnemonic and an operand stand for (R78). -/
def mnemonicInstr : Mnemonic → Nibble → Instr
  | .nop, _ => .nop
  | .lda, x => .lda x
  | .add, x => .add x
  | .sub, x => .sub x
  | .sta, x => .sta x
  | .out, _ => .out
  | .jmp, x => .jmp x
  | .ldi, x => .ldi x
  | .jc, x => .jc x
  | .hlt, _ => .hlt

/-- The byte of a statement (R78). -/
def stmtByte : Stmt → Byte
  | .withOperand m n => encode (mnemonicInstr m (BitVec.ofNat 4 n))
  | .plain m => encode (mnemonicInstr m 0)
  | .byte v => BitVec.ofNat 8 v

/-- The memory image of a list of lines, or nothing if a line is ill formed (R78). -/
def assemble (ls : List Line) : Option (List (Int × Int)) :=
  if ls.all Line.wellFormed then
    some (ls.map fun l => ((l.addr : Int), ((stmtByte l.stmt).toNat : Int)))
  else none

end Sys2Proof.Machine
end

