-- ==== Sys2Proof/Machine/Ports.lean ====
section
/-! DEFINITION. The port list of R156 at the grain of one turn of the engine: a turn with `run` and, in pause
mode, `ack` is one instruction step. The names and the list are a DESIGN CHOICE of the spec, D4, and the order
in which simultaneous inputs are looked at is the model's; log entry 12. There is no clock period (R202). -/

namespace Sys2Proof.Machine

/-- The inputs of R156 in one turn (`clk` is the turn itself). -/
structure PortIn where
  /-- reset, equal to `new()` (R151) -/
  rst : Bool
  /-- image-load strobe, honoured only while `run` is 0 (R152) -/
  ldEn : Bool
  /-- image-load cell address -/
  ldAddr : Nibble
  /-- image-load cell value -/
  ldData : Byte
  /-- 0: the engine holds all state; 1: the engine cycles (R155) -/
  run : Bool
  /-- pause mode selected (R160) -/
  pause : Bool
  /-- releases one instruction step in pause mode (R160) -/
  ack : Bool
deriving DecidableEq, Repr

/-- The state after one turn. In HALTED and FAULTED all state is held until reset, whatever the other inputs
(R28, R99); elsewhere the load strobe is honoured whenever `run` is 0 (R156). Under inputs by which the host
breaks its contract (the strobe after the run has begun, `run` lowered) this is a DESIGN CHOICE of the model,
since R161 leaves them unsaid; log entry 22. -/
def portTick (p : PortIn) (s : State) : State :=
  if p.rst then State.reset
  else if s.phase = .halted ∨ s.phase = .faulted then s
  else if p.run then
    match pausedStep p.pause p.ack s with
    | .next t => t
    | .fault _ => s
    | .refused _ => s
  else if p.ldEn then s.storeCell p.ldAddr p.ldData
  else s

/-- The state after a list of turns, the first turn first. -/
def portRun (ps : List PortIn) (s : State) : State := ps.foldl (fun t p => portTick p t) s

/-- The outputs of R156 after a turn. -/
structure PortOut where
  /-- `out_valid` with `out_data`: the value of this turn's OUT, if there was one (R157) -/
  out : Option Byte
  /-- `PHASE = HALTED` (R158) -/
  halted : Bool
  /-- `PHASE = FAULTED` (R158) -/
  faulted : Bool
  /-- `dbg_a`, `dbg_b`, `dbg_ir`, `dbg_pc`, `dbg_mar`, `dbg_carry`, `dbg_mem` (R154) -/
  dbg : Snapshot
  /-- `dbg_phase` (R159) -/
  dbgPhase : Phase
deriving DecidableEq, Repr

/-- The value output in a turn: what the turn appended to the output history, if anything. -/
def portEmitted (p : PortIn) (s : State) : Option Byte :=
  if p.rst then none else ((portTick p s).outLog.drop s.outLog.length).head?

/-- The outputs after one turn. -/
def portOut (p : PortIn) (s : State) : PortOut where
  out := portEmitted p s
  halted := decide ((portTick p s).phase = .halted)
  faulted := decide ((portTick p s).phase = .faulted)
  dbg := (portTick p s).snapshot
  dbgPhase := (portTick p s).phase

/-! ### The host's side of the contract (R161)

Its other columns hold by the types: no input writes a register, and a snapshot, a trace event and an output
are values that the host cannot write through. -/

/-- What the host does in one turn: the inputs, and whether its Loader has reported an error in that turn,
which no port carries (R155, R192). -/
structure HostTurn where
  /-- the inputs of R156 -/
  port : PortIn
  /-- the image failed to load (R155) -/
  loadFailed : Bool
deriving DecidableEq, Repr

/-- Where the host stands in the boot sequence of R192. -/
inductive HostStage where
  /-- nothing has been reset yet -/
  | beforeReset
  /-- reset, the image being installed -/
  | loading
  /-- reset, and loading has failed: the run must not start before another reset -/
  | loadFailed
  /-- the run has started -/
  | running
deriving DecidableEq, Repr

/-- The stage after a turn the contract allows, nothing where it forbids the turn (R161): reset at any time;
no image and no run before a reset; in the turn that raises `run`, and from then on until reset, no load; no
start after a failed load; `run` not lowered (R156). The other inputs of a reset turn do not count: DESIGN
CHOICE of the model, log entry 22. -/
def HostStage.after (g : HostStage) (t : HostTurn) : Option HostStage :=
  if t.port.rst then some .loading
  else
    match g with
    | .beforeReset => if t.port.run || t.port.ldEn then none else some .beforeReset
    | .loading =>
      if !t.port.run then some (if t.loadFailed then .loadFailed else .loading)
      else if t.port.ldEn || t.loadFailed then none
      else some .running
    | .loadFailed => if t.port.run then none else some .loadFailed
    | .running => if t.port.run && !t.port.ldEn && !t.loadFailed then some .running else none

/-- The stage after a list of turns, nothing once one of them was forbidden. -/
def HostStage.afterAll (g : HostStage) : List HostTurn → Option HostStage
  | [] => some g
  | t :: rest => (g.after t).bind fun h => h.afterAll rest

/-- Does the host keep its part of the contract (R161)? Nothing is said of a run of one that does not. -/
def hostKeepsContract (ts : List HostTurn) : Bool := (HostStage.beforeReset.afterAll ts).isSome

/-- The duty on which a claim of termination rests: whatever has happened, a turn comes in which the engine is
acknowledged or is not in pause mode (R161, R103). -/
def HostAcknowledges (turns : Nat → PortIn) : Prop :=
  ∀ n : Nat, ∃ m : Nat, n ≤ m ∧ ((turns m).pause = false ∨ (turns m).ack = true)

end Sys2Proof.Machine
end

