-- ==== Sys2Proof/Machine/Trace.lean ====
section
/-! DEFINITION. The trace events of R102 and R159: what the engine offers to a sink after each phase and on
OUT. They are functions of the state, never part of it: a trace changes nothing. -/

namespace Sys2Proof.Machine

/-- What the Decode event names: a mnemonic of R73, or "undefined" with the nibble (R159). -/
inductive OpcodeName where
  | named (m : Mnemonic)
  | undefined (op : Nibble)
deriving DecidableEq, Repr

/-- The name of an instruction's opcode (R159). -/
def opcodeName : Instr → OpcodeName
  | .nop => .named .nop
  | .lda _ => .named .lda
  | .add _ => .named .add
  | .sub _ => .named .sub
  | .sta _ => .named .sta
  | .out => .named .out
  | .jmp _ => .named .jmp
  | .ldi _ => .named .ldi
  | .jc _ => .named .jc
  | .hlt => .named .hlt
  | .undefined9 _ => .undefined 9
  | .undefined10 _ => .undefined 10
  | .undefined11 _ => .undefined 11
  | .undefined12 _ => .undefined 12
  | .undefined13 _ => .undefined 13
  | .undefined14 _ => .undefined 14

/-- A trace event (R159). The contents are a DESIGN CHOICE of the spec, D10; log entry 10. -/
inductive TraceEvent where
  /-- after FETCH: `PC` (incremented), `MAR`, `IR` -/
  | fetch (pc mar : Nibble) (ir : Byte)
  /-- after DECODE: the opcode's name -/
  | decode (op : OpcodeName)
  /-- when OUT executes: the 8-bit `A` -/
  | output (a : Byte)
  /-- after the instruction's effect: the snapshot -/
  | execute (after : Snapshot)
deriving DecidableEq, Repr

/-- The output event of an EXECUTE phase: for OUT only (R102). -/
def outputEvents (i : Instr) (s : State) : List TraceEvent :=
  if i = .out then [.output s.a] else []

/-- The events of one phase transition, in order (R102). A terminal phase has none (R99). -/
def tracePhase (s : State) : List TraceEvent :=
  match s.phase with
  | .fetch => let t := fetchPhase s; [.fetch t.pc t.mar t.ir]
  | .decode => [.decode (opcodeName (decodeByte s.ir))]
  | .execute =>
    match executePhase s with
    | .next t => outputEvents (decodeByte s.ir) s ++ [.execute t.snapshot]
    | .fault _ => []
    | .refused _ => []
  | .halted => []
  | .faulted => []

/-- The events of one instruction step, in order (R102). -/
def traceStep (s : State) : List TraceEvent :=
  match s.phase with
  | .fetch =>
    tracePhase s ++ tracePhase (fetchPhase s) ++ tracePhase (decodePhase (fetchPhase s))
  | .decode => tracePhase s ++ tracePhase (decodePhase s)
  | .execute => tracePhase s
  | .halted => []
  | .faulted => []

/-- What a sink receives: the events if there is a sink, nothing if there is none (R102). -/
def offeredTrace (opts : Config.HostOptions) (s : State) : List TraceEvent :=
  if opts.traceSinkPresent then traceStep s else []

end Sys2Proof.Machine
end

