-- ==== Sys2Proof/Safety.lean ====
section
/-! DEFINITION. What counts as a safe run and as its end (R100), the invariant of the states between
instruction steps, and the vocabulary the statements use. -/

namespace Sys2Proof.Safety

open Sys2Proof.Machine

/-- The normal end of a run: the first state with `PHASE = HALTED` (R100). -/
abbrev Final (s : State) : Prop := s.phase = .halted

/-- The engine stopped on an undefined opcode, an error (R100, R172). -/
abbrev Failed (s : State) : Prop := s.phase = .faulted

/-- A state a safe run may be in. -/
abbrev Safe (s : State) : Prop := ¬ Failed s

/-- What holds between instruction steps: the memory is canonical; `PHASE` is not DECODE or EXECUTE (R28);
in HALTED `IR` holds opcode 15 and in FAULTED an opcode 9 to 14 (R25); and in both, `PC` is `MAR` plus one
mod 16 and `MAR` is the cell the byte in `IR` came from (R99). -/
abbrev BoundaryInv (s : State) : Prop :=
  s.mem.wf ∧ s.phase ≠ .decode ∧ s.phase ≠ .execute ∧
  (s.phase = .halted → (opcodeOf s.ir).toNat = 15) ∧
  (s.phase = .faulted → 9 ≤ (opcodeOf s.ir).toNat ∧ (opcodeOf s.ir).toNat ≤ 14) ∧
  (s.phase ≠ .fetch → s.pc = s.mar + 1 ∧ s.cell s.mar = s.ir)

/-- About to fetch a byte with opcode nibble `op`: R96's condition on the state, and R71's field. -/
abbrev AboutToRun (op : Nat) (s : State) : Prop :=
  s.phase = .fetch ∧ (s.cell s.pc).toNat / 16 = op

/-- The operand nibble of the byte `PC` points at (R71). -/
abbrev operandAtPc (s : State) : Nibble := operandOf (s.cell s.pc)

/-- Every cell reads in `t` as in `s`. -/
abbrev SameCells (s t : State) : Prop := ∀ c : Nibble, t.cell c = s.cell c

/-- Every cell but `x` reads in `t` as in `s`. -/
abbrev SameCellsBut (x : Nibble) (s t : State) : Prop := ∀ c : Nibble, c ≠ x → t.cell c = s.cell c

/-- What FETCH alone changes over a whole instruction step (R91): `MAR` is the instruction address, `IR` the
byte there, `PC` the next address mod 16. -/
abbrev FetchedFrom (s t : State) : Prop :=
  t.mar = s.pc ∧ t.ir = s.cell s.pc ∧ t.pc = s.pc + 1

end Sys2Proof.Safety
end

