-- ==== Sys2Proof/Certificates/Slice0/Obligations.lean ====
section
/-! DEFINITION. The statements for the provers. Each docstring names the rule it formalises; where a clause
rests on a decision the spec marks as its own, or on a choice of the model, it says so and names the entry of
notes/assumptions. -/

open Sys2Proof Sys2Proof.Machine Sys2Proof.Safety

/-! ### Encoding -/

/-- The decoder of R81 and the encoder are inverse: on every instruction, and on every byte up to the operand
bits NOP, OUT and HLT ignore. The canonical operand 0 is the spec's decision D13 (log entry 15). -/
def Obligations.DecodeAndEncodeAgree : Prop :=
  (∀ i : Instr, decodeByte (encode i) = i) ∧
  (∀ (i : Instr) (rest : List Byte), decodeBytes (encodeBytes i ++ rest) = .ok (i, rest)) ∧
  (∀ b : Byte, b.toNat / 16 ≠ 0 → b.toNat / 16 ≠ 5 → b.toNat / 16 ≠ 15 → encode (decodeByte b) = b) ∧
  (∀ b : Byte, b.toNat / 16 = 0 ∨ b.toNat / 16 = 5 ∨ b.toNat / 16 = 15 →
    (encode (decodeByte b)).toNat = b.toNat - b.toNat % 16)

/-- R71: one format, `byte = opcode * 16 + operand`, for every instruction; and the fields of a byte are
`div 16` and `mod 16`. -/
def Obligations.OneFormatOpcodeHighOperandLow : Prop :=
  (∀ i : Instr, (encode i).toNat = i.opcode.toNat * 16 + i.operandField.toNat) ∧
  (∀ b : Byte, (opcodeOf b).toNat = b.toNat / 16 ∧ (operandOf b).toNat = b.toNat % 16 ∧
    b.toNat = (opcodeOf b).toNat * 16 + (operandOf b).toNat)

/-- The opcode map (R73), row by row, for every byte. The map is the spec's decision D20 (log entry 5). -/
def Obligations.OpcodeNibbleSelectsTheInstruction : Prop :=
  ∀ (b : Byte) (x : Nibble), x = operandOf b →
    (b.toNat / 16 = 0 → decodeByte b = .nop) ∧ (b.toNat / 16 = 1 → decodeByte b = .lda x) ∧
    (b.toNat / 16 = 2 → decodeByte b = .add x) ∧ (b.toNat / 16 = 3 → decodeByte b = .sub x) ∧
    (b.toNat / 16 = 4 → decodeByte b = .sta x) ∧ (b.toNat / 16 = 5 → decodeByte b = .out) ∧
    (b.toNat / 16 = 6 → decodeByte b = .jmp x) ∧ (b.toNat / 16 = 7 → decodeByte b = .ldi x) ∧
    (b.toNat / 16 = 8 → decodeByte b = .jc x) ∧ (b.toNat / 16 = 9 → decodeByte b = .undefined9 x) ∧
    (b.toNat / 16 = 10 → decodeByte b = .undefined10 x) ∧
    (b.toNat / 16 = 11 → decodeByte b = .undefined11 x) ∧
    (b.toNat / 16 = 12 → decodeByte b = .undefined12 x) ∧
    (b.toNat / 16 = 13 → decodeByte b = .undefined13 x) ∧
    (b.toNat / 16 = 14 → decodeByte b = .undefined14 x) ∧ (b.toNat / 16 = 15 → decodeByte b = .hlt)

/-- Words written out from the table of worked encodings (R80), one per family. -/
def Obligations.WorkedEncodingsDecode : Prop :=
  decodeByte 0b00011110#8 = .lda 14 ∧ decodeByte 0b00101111#8 = .add 15 ∧
  decodeByte 0b10000100#8 = .jc 4 ∧ decodeByte 0b01010000#8 = .out ∧
  decodeByte 0b11110000#8 = .hlt ∧ decodeByte 0b10011010#8 = .undefined9 10

/-- The lines of R78, in numbers: a mnemonic with operand `n` is the byte `opcode * 16 + n` with the opcode of
R73, a mnemonic alone is `opcode * 16`, `.byte v` is `v`; the byte stands in the line's cell and every other
cell is 0. Each form out of R78's grammar is refused, and lines follow one another in the image. The notation
is the spec's decision D14 (log entry 19), the map D20 (log entry 5). -/
def Obligations.AssemblyLinesMeanTheirInstructions : Prop :=
  (∀ (m : Mnemonic) (op n addr : Nat),
    (m, op) ∈ [(.lda, 1), (.add, 2), (.sub, 3), (.sta, 4), (.jmp, 6), (.ldi, 7), (.jc, 8)] →
    n < 16 → addr < 16 →
    ∃ img, assemble [⟨addr, .withOperand m n⟩] = some img ∧
      ((launch img).cell (BitVec.ofNat 4 addr)).toNat = op * 16 + n ∧
      ∀ c : Nibble, c ≠ BitVec.ofNat 4 addr → (launch img).cell c = 0) ∧
  (∀ (m : Mnemonic) (op addr : Nat), (m, op) ∈ [(.nop, 0), (.out, 5), (.hlt, 15)] → addr < 16 →
    ∃ img, assemble [⟨addr, .plain m⟩] = some img ∧
      ((launch img).cell (BitVec.ofNat 4 addr)).toNat = op * 16 ∧
      ∀ c : Nibble, c ≠ BitVec.ofNat 4 addr → (launch img).cell c = 0) ∧
  (∀ v addr : Nat, v < 256 → addr < 16 →
    ∃ img, assemble [⟨addr, .byte v⟩] = some img ∧
      ((launch img).cell (BitVec.ofNat 4 addr)).toNat = v ∧
      ∀ c : Nibble, c ≠ BitVec.ofNat 4 addr → (launch img).cell c = 0) ∧
  (∀ (addr : Nat) (st : Stmt), 16 ≤ addr → assemble [⟨addr, st⟩] = none) ∧
  (∀ (addr n : Nat) (m : Mnemonic), 16 ≤ n → assemble [⟨addr, .withOperand m n⟩] = none) ∧
  (∀ addr v : Nat, 256 ≤ v → assemble [⟨addr, .byte v⟩] = none) ∧
  (∀ (addr n : Nat) (m : Mnemonic), m = .nop ∨ m = .out ∨ m = .hlt →
    assemble [⟨addr, .withOperand m n⟩] = none) ∧
  (∀ (addr : Nat) (m : Mnemonic),
    m ∈ [Mnemonic.lda, .add, .sub, .sta, .jmp, .ldi, .jc] → assemble [⟨addr, .plain m⟩] = none) ∧
  (∀ ls ls' : List Line, assemble (ls ++ ls') =
    (assemble ls).bind fun img => (assemble ls').map fun img' => img ++ img')

/-! ### Memory -/

/-- The two primitives of R52 over the decoder of R51: for any integers, a write makes the cell `addr mod 16`
hold `v mod 256` and leaves every other cell alone. It holds of every memory, canonical or not. -/
def Obligations.MemWriteThenMemRead : Prop :=
  ∀ (m : Memory) (addr v other : Int),
    (other % 16 = addr % 16 → ((memRead (memWrite m addr v) other).toNat : Int) = v % 256) ∧
    (other % 16 ≠ addr % 16 → memRead (memWrite m addr v) other = memRead m other)

/-- The representation of memory loses nothing and adds nothing: two canonical memories that read alike in
every cell are the same data (log entry 9, the model's own representation). -/
def Obligations.CanonicalMemoriesReadingAlikeAreEqual : Prop :=
  ∀ m m' : Memory, m.wf → m'.wf → (∀ addr : Int, memRead m addr = memRead m' addr) → m = m'

/-- R27: memory changes by STA, in the cell it names, and by `set_memory`; FETCH and DECODE change none of it;
only LDA, ADD and SUB (and FETCH) read it; every access wraps mod 16; every cell is 0 at reset. -/
def Obligations.MemoryIsWrittenByStaAndImageLoadOnly : Prop :=
  (∀ (i : Instr) (s t : State) (c : Nibble), exec i s = .next t → t.cell c ≠ s.cell c →
    i = .sta c ∧ t.cell c = s.a) ∧
  (∀ (s : State) (c : Nibble), (fetchPhase s).cell c = s.cell c ∧ (decodePhase s).cell c = s.cell c) ∧
  (∀ (addr v : Int) (s : State) (c : Nibble), (setMemory addr v s).cell c ≠ s.cell c →
    (c.toNat : Int) = addr % 16) ∧
  (∀ (i : Instr) (s : State) (m : Memory), (∀ x, i ≠ .lda x ∧ i ≠ .add x ∧ i ≠ .sub x) →
    ∃ t t', exec i s = .next t ∧ exec i (s.setMem m) = .next t' ∧ t'.setMem [] = t.setMem []) ∧
  (∀ (m : Memory) (addr v : Int), memRead m addr = memRead m (addr % 16) ∧
    memWrite m addr v = memWrite m (addr % 16) v) ∧
  (∀ c : Nibble, State.reset.cell c = 0)

/-! ### The cycle -/

/-- R91: FETCH, as one transition of the controller, from every state in that phase. Its trace event is in
`TraceEventsOfAStep`. -/
def Obligations.FetchReadsTheByteAtPcAndIncrementsPc : Prop :=
  ∀ s : State, s.phase = .fetch →
    ∃ t, phaseStep s = .next t ∧ t.phase = .decode ∧ t.mar = s.pc ∧ t.ir = s.cell s.pc ∧
      t.pc.toNat = (s.pc.toNat + 1) % 16 ∧ t.a = s.a ∧ t.b = s.b ∧ t.carry = s.carry ∧
      t.outLog = s.outLog ∧ SameCells s t

/-- R92: DECODE writes `PHASE` and nothing else, for every byte, and never faults. Its event names the opcode: the
mnemonic of R73, or "undefined" with the nibble; these contents are the spec's decision D10 (log entry 10). -/
def Obligations.DecodeWritesThePhaseOnly : Prop :=
  ∀ s : State, s.phase = .decode →
    phaseStep s = .next { s with phase := .execute } ∧
    (opcodeOf s.ir).toNat = s.ir.toNat / 16 ∧ (operandOf s.ir).toNat = s.ir.toNat % 16 ∧
    (∀ (n : Nat) (m : Mnemonic),
      (n, m) ∈ [(0, .nop), (1, .lda), (2, .add), (3, .sub), (4, .sta), (5, .out), (6, .jmp), (7, .ldi),
        (8, .jc), (15, .hlt)] →
      s.ir.toNat / 16 = n → tracePhase s = [.decode (.named m)]) ∧
    (9 ≤ s.ir.toNat / 16 → s.ir.toNat / 16 ≤ 14 →
      tracePhase s = [.decode (.undefined (BitVec.ofNat 4 (s.ir.toNat / 16)))])

/-- R90 and R94: the transition table of the controller. -/
def Obligations.ControllerTransitions : Prop :=
  State.reset.phase = .fetch ∧
  (∀ s : State, s.phase = .fetch → ∃ t, phaseStep s = .next t ∧ t.phase = .decode) ∧
  (∀ s : State, s.phase = .decode → ∃ t, phaseStep s = .next t ∧ t.phase = .execute) ∧
  (∀ s : State, s.phase = .execute → ∃ t, phaseStep s = .next t ∧
    (s.ir.toNat / 16 ≤ 8 → t.phase = .fetch) ∧
    (9 ≤ s.ir.toNat / 16 → s.ir.toNat / 16 ≤ 14 → t.phase = .faulted) ∧
    (s.ir.toNat / 16 = 15 → t.phase = .halted)) ∧
  (∀ s t : State, s.phase = .halted ∨ s.phase = .faulted → phaseStep s ≠ .next t)

/-- R97 (an inference of the spec): the phase-level machine and the instruction step are the same machine. In a
state inside a pass the step runs the phases still to come: that clause is the model's, log entry 1. -/
def Obligations.PhaseTransitionsComposeToTheStep : Prop :=
  (∀ s : State, s.phase = .fetch → ∃ s1 s2, phaseStep s = .next s1 ∧ s1.phase = .decode ∧
    phaseStep s1 = .next s2 ∧ s2.phase = .execute ∧ phaseStep s2 = step s) ∧
  (∀ s : State, s.phase = .decode → ∃ s2, phaseStep s = .next s2 ∧ s2.phase = .execute ∧
    phaseStep s2 = step s) ∧
  (∀ s : State, s.phase = .execute → phaseStep s = step s)

/-- R96: when the byte at `PC` decodes to an instruction, the step is that instruction's effect on the state
FETCH and DECODE leave: `MAR` the instruction address, `IR` the byte, `PC` incremented mod 16. -/
def Obligations.StepRunsTheDecodedInstruction : Prop :=
  ∀ (s : State) (i : Instr) (rest : List Byte), s.phase = .fetch →
    decodeBytes (s.cell s.pc :: rest) = .ok (i, rest) →
    step s = exec i { s with mar := s.pc, ir := s.cell s.pc, pc := s.pc + 1, phase := .execute }

/-- R203, R176: from FETCH the step never stalls and never refuses, and leaves the machine between instruction
steps (R28). That it also gives a next state from DECODE and EXECUTE, where R96 defines no step, is the model's
choice, log entry 1. -/
def Obligations.StepIsTotalOutsideTheTerminalPhases : Prop :=
  (∀ s : State, s.phase ≠ .halted → s.phase ≠ .faulted →
    ∃ t, step s = .next t ∧ (t.phase = .fetch ∨ t.phase = .halted ∨ t.phase = .faulted)) ∧
  (∀ (s : State) (r : Refusal), step s ≠ .refused r)

/-- R99, U8: no step exists from HALTED or FAULTED, and the ports show the state frozen until reset, whatever the
other inputs (R28). That the model's step answers a named fault there is its own choice (log entry 2; the
spec's decision D12), and so is what the ports do under a host that breaks its contract (log entry 22). -/
def Obligations.TerminalPhasesAreAbsorbing : Prop :=
  (∀ s : State, s.phase = .halted → step s = .fault .noStepFromHalted ∧ traceStep s = []) ∧
  (∀ s : State, s.phase = .faulted → step s = .fault .noStepFromFaulted ∧ traceStep s = []) ∧
  (∀ (s : State) (p : PortIn), s.phase = .halted ∨ s.phase = .faulted → p.rst = false →
    portTick p s = s ∧ (portOut p s).out = none)

/-- The invariant of the states between instruction steps (R25, R28, R99, log entry 9) is kept by every step,
from every state that meets it. -/
def Obligations.BoundaryInvariantIsKept : Prop :=
  ∀ s t : State, BoundaryInv s → step s = .next t → BoundaryInv t

/-- Reset meets the invariant. -/
def Obligations.BoundaryInvariantHoldsAtReset : Prop := BoundaryInv State.reset

/-- R76 (an inference of the spec): the byte alone decides how a step ends: 0x00 to 0x8F go on, 0x90 to 0xEF
fault, 0xF0 to 0xFF halt. -/
def Obligations.FetchedByteDecidesHowTheStepEnds : Prop :=
  ∀ s t : State, s.phase = .fetch → step s = .next t →
    (t.phase = .fetch ↔ (s.cell s.pc).toNat ≤ 0x8F) ∧
    (t.phase = .faulted ↔ 0x90 ≤ (s.cell s.pc).toNat ∧ (s.cell s.pc).toNat ≤ 0xEF) ∧
    (t.phase = .halted ↔ 0xF0 ≤ (s.cell s.pc).toNat)

/-- R132: every instruction but a taken jump leaves `PC` at the next cell, wrapping 15 to 0 silently. -/
def Obligations.SequentialFlowUnlessAJumpIsTaken : Prop :=
  ∀ s : State, s.phase = .fetch →
    ¬ AboutToRun 6 s → ¬ (AboutToRun 8 s ∧ s.carry = true) →
    ∃ t, step s = .next t ∧ t.pc.toNat = (s.pc.toNat + 1) % 16 ∧
      (¬ AboutToRun 2 s → ¬ AboutToRun 3 s → t.carry = s.carry) ∧
      ((s.cell s.pc).toNat / 16 ≤ 8 → t.phase = .fetch)

/-! ### Data movement -/

/-- R110: LDA. The clause on `MAR` is the spec's decision D2 (log entry 4). -/
def Obligations.LdaLoadsTheAddressedCell : Prop :=
  ∀ (x : Nibble) (s : State), ∃ t, exec (.lda x) s = .next t ∧
    t.a = s.cell (dataAddress x) ∧ t.mar = x ∧ t.b = s.b ∧ t.pc = s.pc ∧ t.ir = s.ir ∧
    t.carry = s.carry ∧ t.phase = .fetch ∧ t.outLog = s.outLog ∧ SameCells s t

/-- R111: STA, every byte of memory named. The clause on `MAR` is the spec's decision D2 (log entry 4). -/
def Obligations.StaStoresInTheAddressedCellOnly : Prop :=
  ∀ (x : Nibble) (s : State), ∃ t, exec (.sta x) s = .next t ∧
    t.cell (dataAddress x) = s.a ∧ SameCellsBut (dataAddress x) s t ∧ t.mar = x ∧ t.a = s.a ∧
    t.b = s.b ∧ t.pc = s.pc ∧ t.ir = s.ir ∧ t.carry = s.carry ∧ t.phase = .fetch ∧
    t.outLog = s.outLog

/-- R112: LDI, as the EXECUTE effect and over the whole step from every one of its bytes. -/
def Obligations.LdiLoadsTheZeroExtendedNibble : Prop :=
  (∀ (x : Nibble) (s : State), ∃ t, exec (.ldi x) s = .next t ∧
    t.a.toNat = x.toNat ∧ t.b = s.b ∧ t.pc = s.pc ∧ t.mar = s.mar ∧ t.ir = s.ir ∧
    t.carry = s.carry ∧ t.phase = .fetch ∧ t.outLog = s.outLog ∧ SameCells s t) ∧
  (∀ s : State, AboutToRun 7 s → ∃ t, step s = .next t ∧ FetchedFrom s t ∧
    t.a.toNat = t.ir.toNat % 16 ∧ t.b = s.b ∧ t.carry = s.carry ∧ t.phase = .fetch ∧
    t.outLog = s.outLog ∧ SameCells s t)

/-! ### Arithmetic -/

/-- R120: ADD. The clause on `MAR` is the spec's decision D2 (log entry 4). -/
def Obligations.AddAddsTheCellAndRecordsTheCarry : Prop :=
  ∀ (x : Nibble) (s : State), ∃ t, exec (.add x) s = .next t ∧
    t.b = s.cell (dataAddress x) ∧
    t.a.toNat = (s.a.toNat + (s.cell (dataAddress x)).toNat) % 256 ∧
    (t.carry = true ↔ 256 ≤ s.a.toNat + (s.cell (dataAddress x)).toNat) ∧
    t.mar = x ∧ t.pc = s.pc ∧ t.ir = s.ir ∧ t.phase = .fetch ∧ t.outLog = s.outLog ∧
    SameCells s t

/-- R121: SUB, `CARRY` being the borrow against the operand just loaded (D19, C5). The clause on `MAR` is the
spec's decision D2 (log entries 4 and 17). -/
def Obligations.SubSubtractsTheCellAndRecordsTheBorrow : Prop :=
  ∀ (x : Nibble) (s : State), ∃ t, exec (.sub x) s = .next t ∧
    t.b = s.cell (dataAddress x) ∧
    (t.a.toNat : Int) = ((s.a.toNat : Int) - ((s.cell (dataAddress x)).toNat : Int)) % 256 ∧
    (t.carry = true ↔ s.a.toNat < (s.cell (dataAddress x)).toNat) ∧
    t.mar = x ∧ t.pc = s.pc ∧ t.ir = s.ir ∧ t.phase = .fetch ∧ t.outLog = s.outLog ∧
    SameCells s t

/-- R123 (laws the spec derives): nothing is lost between `A'` and `CARRY'`, the carry is visible in `A'`, and
ADD is commutative in its two addends. -/
def Obligations.AddLosesNothing : Prop :=
  (∀ (x : Nibble) (s t : State), exec (.add x) s = .next t →
    t.a.toNat + 256 * t.carry.toNat = s.a.toNat + (s.cell x).toNat ∧
    (t.carry = true ↔ t.a.toNat < s.a.toNat) ∧ (t.carry = true ↔ t.a.toNat < t.b.toNat)) ∧
  (∀ (x : Nibble) (s s' t t' : State), exec (.add x) s = .next t → exec (.add x) s' = .next t' →
    s'.a = s.cell x → s'.cell x = s.a → t'.a = t.a ∧ t'.carry = t.carry)

/-- R124 (laws the spec derives): `A' - 256 * CARRY'` is the exact difference, the borrow is visible in `A'`,
and SUB after ADD of the same cell restores `A`, with the flag as the ADD left it. -/
def Obligations.SubLosesNothingAndUndoesAdd : Prop :=
  (∀ (x : Nibble) (s t : State), exec (.sub x) s = .next t →
    (t.a.toNat : Int) - 256 * (t.carry.toNat : Int) =
      (s.a.toNat : Int) - ((s.cell x).toNat : Int) ∧
    (t.carry = true ↔ s.a.toNat < t.a.toNat)) ∧
  (∀ (x : Nibble) (s t u : State), exec (.add x) s = .next t → exec (.sub x) t = .next u →
    u.a = s.a ∧ u.carry = t.carry)

/-! ### Control transfer -/

/-- R130: JMP, as the EXECUTE effect and over the whole step from every one of its bytes. -/
def Obligations.JmpSetsPcToTheOperand : Prop :=
  (∀ (x : Nibble) (s : State), ∃ t, exec (.jmp x) s = .next t ∧
    t.pc = x ∧ t.a = s.a ∧ t.b = s.b ∧ t.mar = s.mar ∧ t.ir = s.ir ∧ t.carry = s.carry ∧
    t.phase = .fetch ∧ t.outLog = s.outLog ∧ SameCells s t) ∧
  (∀ s : State, AboutToRun 6 s → ∃ t, step s = .next t ∧
    t.pc = operandAtPc s ∧ t.mar = s.pc ∧ t.ir = s.cell s.pc ∧ t.a = s.a ∧ t.b = s.b ∧
    t.carry = s.carry ∧ t.phase = .fetch ∧ t.outLog = s.outLog ∧ SameCells s t)

/-- R131: JC, taken and not taken, as the EXECUTE effect and over the whole step from every one of its
bytes. -/
def Obligations.JcJumpsExactlyWhenCarryIsSet : Prop :=
  (∀ (x : Nibble) (s : State), ∃ t, exec (.jc x) s = .next t ∧
    (s.carry = true → t.pc = x) ∧ (s.carry = false → t.pc = s.pc) ∧ t.a = s.a ∧ t.b = s.b ∧
    t.mar = s.mar ∧ t.ir = s.ir ∧ t.carry = s.carry ∧ t.phase = .fetch ∧ t.outLog = s.outLog ∧
    SameCells s t) ∧
  (∀ s : State, AboutToRun 8 s → ∃ t, step s = .next t ∧
    (s.carry = true → t.pc = operandAtPc s) ∧
    (s.carry = false → t.pc.toNat = (s.pc.toNat + 1) % 16) ∧ t.mar = s.pc ∧ t.ir = s.cell s.pc ∧
    t.a = s.a ∧ t.b = s.b ∧ t.carry = s.carry ∧ t.phase = .fetch ∧ t.outLog = s.outLog ∧
    SameCells s t)

/-- R130 corner case b, R101: a jump to its own address repeats for ever, changing nothing more. -/
def Obligations.JumpToItselfRepeatsForEver : Prop :=
  ∀ (n : Nat) (s : State), s.phase = .fetch → decodeByte (s.cell s.pc) = .jmp s.pc →
    ∃ t, Host.Core.run core n s = .next t ∧ t.pc = s.pc ∧ t.phase = .fetch ∧ t.a = s.a ∧
      t.b = s.b ∧ t.carry = s.carry ∧ t.outLog = s.outLog ∧ SameCells s t

/-! ### System -/

/-- R140: NOP, as the EXECUTE effect and over the whole step from every one of its bytes. -/
def Obligations.NopChangesWhatFetchChanges : Prop :=
  (∀ s : State, ∃ t, exec .nop s = .next t ∧ t.a = s.a ∧ t.b = s.b ∧ t.pc = s.pc ∧
    t.mar = s.mar ∧ t.ir = s.ir ∧ t.carry = s.carry ∧ t.phase = .fetch ∧ t.outLog = s.outLog ∧
    SameCells s t) ∧
  (∀ s : State, AboutToRun 0 s → ∃ t, step s = .next t ∧ FetchedFrom s t ∧ t.a = s.a ∧
    t.b = s.b ∧ t.carry = s.carry ∧ t.phase = .fetch ∧ t.outLog = s.outLog ∧ SameCells s t)

/-- R141: OUT. That the emission is recorded in the output history is the spec's decision D7 (log entry 6). -/
def Obligations.OutAppendsTheAccumulator : Prop :=
  (∀ s : State, ∃ t, exec .out s = .next t ∧ t.outLog = s.outLog ++ [s.a] ∧ t.a = s.a ∧
    t.b = s.b ∧ t.pc = s.pc ∧ t.mar = s.mar ∧ t.ir = s.ir ∧ t.carry = s.carry ∧
    t.phase = .fetch ∧ SameCells s t) ∧
  (∀ s : State, AboutToRun 5 s → ∃ t, step s = .next t ∧ FetchedFrom s t ∧
    t.outLog = s.outLog ++ [s.a] ∧ t.a = s.a ∧ t.b = s.b ∧ t.carry = s.carry ∧
    t.phase = .fetch ∧ SameCells s t)

/-- R142, R171: HLT takes the Halt condition. That the report carries the incremented `PC` is the spec's
decision D8 (log entry 3). -/
def Obligations.HltHaltsAndReportsTheIncrementedPc : Prop :=
  (∀ s : State, ∃ t, exec .hlt s = .next t ∧ t.phase = .halted ∧ t.a = s.a ∧ t.b = s.b ∧
    t.pc = s.pc ∧ t.mar = s.mar ∧ t.ir = s.ir ∧ t.carry = s.carry ∧ t.outLog = s.outLog ∧
    SameCells s t) ∧
  (∀ s : State, AboutToRun 15 s → ∃ t, step s = .next t ∧ FetchedFrom s t ∧
    t.phase = .halted ∧ t.report = some (.halt (s.pc + 1)) ∧ t.a = s.a ∧ t.b = s.b ∧
    t.carry = s.carry ∧ t.outLog = s.outLog ∧ SameCells s t)

/-- R143, R172: each of the six undefined opcodes takes InvalidInstruction with no other effect, and the report
carries the whole byte. The state at the fault is the spec's decision D9 (log entry 3). -/
def Obligations.UndefinedOpcodesFaultAndReportTheByte : Prop :=
  (∀ (i : Instr) (x : Nibble) (s : State),
    i = .undefined9 x ∨ i = .undefined10 x ∨ i = .undefined11 x ∨ i = .undefined12 x ∨
      i = .undefined13 x ∨ i = .undefined14 x →
    ∃ t, exec i s = .next t ∧ t.phase = .faulted ∧ t.a = s.a ∧ t.b = s.b ∧ t.pc = s.pc ∧
      t.mar = s.mar ∧ t.ir = s.ir ∧ t.carry = s.carry ∧ t.outLog = s.outLog ∧ SameCells s t) ∧
  (∀ (s : State) (n : Nat), AboutToRun n s → 9 ≤ n → n ≤ 14 →
    ∃ t, step s = .next t ∧ FetchedFrom s t ∧ t.phase = .faulted ∧
      t.report = some (.invalidInstruction (s.cell s.pc)) ∧
      t.report.bind Report.opcodeAttempted = some (BitVec.ofNat 4 n) ∧
      t.a = s.a ∧ t.b = s.b ∧ t.carry = s.carry ∧ t.outLog = s.outLog ∧ SameCells s t)

/-! ### Who writes and who reads each register -/

/-- R21: `A` is written by LDA, LDI, ADD and SUB only and read by ADD, SUB, STA and OUT only: whatever it held,
LDA and LDI come out the same; every other instruction that does not read it carries it through and is
otherwise the same, and so do FETCH and DECODE. -/
def Obligations.AccumulatorWritersAndReaders : Prop :=
  (∀ (i : Instr) (s t : State), exec i s = .next t → t.a ≠ s.a →
    ∃ x, i = .lda x ∨ i = .ldi x ∨ i = .add x ∨ i = .sub x) ∧
  (∀ (x : Nibble) (s : State) (v : Byte), exec (.lda x) (s.setA v) = exec (.lda x) s ∧
    exec (.ldi x) (s.setA v) = exec (.ldi x) s) ∧
  (∀ (i : Instr) (s : State) (v : Byte), i ≠ .out →
    (∀ x, i ≠ .add x ∧ i ≠ .sub x ∧ i ≠ .sta x ∧ i ≠ .lda x ∧ i ≠ .ldi x) →
    ∃ t, exec i s = .next t ∧ exec i (s.setA v) = .next (t.setA v) ∧ t.a = s.a) ∧
  (∀ (s : State) (v : Byte), fetchPhase (s.setA v) = (fetchPhase s).setA v ∧
    decodePhase (s.setA v) = (decodePhase s).setA v) ∧
  State.reset.a = 0

/-- R22: `B` is written by ADD and SUB only, and no instruction reads the `B` an earlier one left (the second
clause is an inference of the spec): whatever it held, ADD and SUB come out the same, and every other
instruction carries it through. -/
def Obligations.ScratchRegisterIsNeverAnInput : Prop :=
  (∀ (i : Instr) (s t : State), exec i s = .next t → t.b ≠ s.b →
    ∃ x, (i = .add x ∨ i = .sub x) ∧ t.b = s.cell x) ∧
  (∀ (x : Nibble) (s : State) (v : Byte), exec (.add x) (s.setB v) = exec (.add x) s ∧
    exec (.sub x) (s.setB v) = exec (.sub x) s) ∧
  (∀ (i : Instr) (s : State) (v : Byte), (∀ x, i ≠ .add x ∧ i ≠ .sub x) →
    ∃ t, exec i s = .next t ∧ exec i (s.setB v) = .next (t.setB v))

/-- R26: `CARRY` is written by ADD and SUB only and read by JC only; it is no input of the ALU (an inference of
the spec): whatever it held, ADD and SUB come out the same. -/
def Obligations.CarryIsReadByJcOnly : Prop :=
  (∀ (i : Instr) (s t : State), exec i s = .next t → t.carry ≠ s.carry →
    ∃ x, i = .add x ∨ i = .sub x) ∧
  (∀ (x : Nibble) (s : State) (v : Bool), exec (.add x) (s.setCarry v) = exec (.add x) s ∧
    exec (.sub x) (s.setCarry v) = exec (.sub x) s) ∧
  (∀ (i : Instr) (s : State) (v : Bool), (∀ x, i ≠ .add x ∧ i ≠ .sub x ∧ i ≠ .jc x) →
    ∃ t, exec i s = .next t ∧ exec i (s.setCarry v) = .next (t.setCarry v))

/-- R23: in EXECUTE `PC` is written by JMP, and by JC with `CARRY` 1, each with its operand. -/
def Obligations.OnlyJumpsWritePcInExecute : Prop :=
  ∀ (i : Instr) (s t : State), exec i s = .next t → t.pc ≠ s.pc →
    i = .jmp t.pc ∨ (i = .jc t.pc ∧ s.carry = true)

/-- R25, R33 (a summary the spec derives): EXECUTE never writes `IR`, writes `MAR` only in the four data
accesses, with their address (D2, log entry 4), and the output history only in OUT (D7, log entry 6). -/
def Obligations.ExecuteKeepsIrMarAndOutputHistory : Prop :=
  ∀ (i : Instr) (s t : State), exec i s = .next t →
    t.ir = s.ir ∧
    (t.mar ≠ s.mar → i = .lda t.mar ∨ i = .add t.mar ∨ i = .sub t.mar ∨ i = .sta t.mar) ∧
    (t.outLog ≠ s.outLog → i = .out)

/-- R24: after a step `MAR` is the address of the step's last memory access: the operand for LDA, ADD, SUB and
STA (the spec's decision D2, log entry 4), the instruction address for every other byte. -/
def Obligations.MarIsTheLastAccessAddress : Prop :=
  ∀ s t : State, s.phase = .fetch → step s = .next t →
    (1 ≤ (s.cell s.pc).toNat / 16 ∧ (s.cell s.pc).toNat / 16 ≤ 4 → t.mar = operandAtPc s) ∧
    (¬ (1 ≤ (s.cell s.pc).toNat / 16 ∧ (s.cell s.pc).toNat / 16 ≤ 4) → t.mar = s.pc)

/-! ### No hazards -/

/-- R60, R199 (inferences of the spec): the running STA is unaffected by what it stores, even over its own cell,
and a byte stored in the next cell is what the very next step runs. -/
def Obligations.StoreIsSeenByTheNextFetch : Prop :=
  ∀ (s : State) (x : Nibble), s.phase = .fetch → decodeByte (s.cell s.pc) = .sta x →
    ∃ t, step s = .next t ∧ t.ir = s.cell s.pc ∧ t.cell x = s.a ∧ SameCellsBut x s t ∧
      (x = s.pc + 1 → step t =
        exec (decodeByte s.a) { t with mar := t.pc, ir := s.a, pc := t.pc + 1, phase := .execute })

/-- R196 (an inference of the spec), with R120, R121 and R131: the flag an ADD or SUB leaves is the one a JC
right after it tests. That SUB sets it exactly when `A` was less, and not the other way round, is the spec's
decision D19 (log entry 17). -/
def Obligations.CarryIsSeenByTheNextJc : Prop :=
  (∀ (s : State) (x y : Nibble), s.phase = .fetch → decodeByte (s.cell s.pc) = .add x →
    decodeByte (s.cell (s.pc + 1)) = .jc y → ∃ t u, step s = .next t ∧ step t = .next u ∧
      u.pc = if 256 ≤ s.a.toNat + (s.cell x).toNat then y else s.pc + 2) ∧
  (∀ (s : State) (x y : Nibble), s.phase = .fetch → decodeByte (s.cell s.pc) = .sub x →
    decodeByte (s.cell (s.pc + 1)) = .jc y → ∃ t u, step s = .next t ∧ step t = .next u ∧
      u.pc = if s.a.toNat < (s.cell x).toNat then y else s.pc + 2)

/-! ### Reset and the host -/

/-- R32: every element after reset, each of the 16 cells among them. -/
def Obligations.ResetZeroesEverything : Prop :=
  State.reset.a = 0 ∧ State.reset.b = 0 ∧ State.reset.pc = 0 ∧ State.reset.mar = 0 ∧
  State.reset.ir = 0 ∧ State.reset.carry = false ∧ (∀ c : Nibble, State.reset.cell c = 0) ∧
  State.reset.phase = .fetch ∧ State.reset.outLog = []

/-- R152, R154: what `set_memory` writes is what the snapshot shows, for any integers, and it changes nothing
else (that the snapshot is without `PHASE` is the model's choice, log entry 21). The wrap of out-of-range integers is the spec's decision D5 (log entry 8). -/
def Obligations.SetMemoryThenSnapshotRoundTrips : Prop :=
  ∀ (addr v : Int) (s : State) (k : Nat) (hk : k < 16),
    ((k : Int) = addr % 16 →
      (((setMemory addr v s).snapshot.cells[k]).toNat : Int) = v % 256) ∧
    ((k : Int) ≠ addr % 16 →
      (setMemory addr v s).snapshot.cells[k] = s.snapshot.cells[k]) ∧
    { (setMemory addr v s).snapshot with cells := s.snapshot.cells } = s.snapshot ∧
    (setMemory addr v s).phase = s.phase ∧ (setMemory addr v s).outLog = s.outLog

/-- R193: the launch state: each cell is what the image's last entry for it wrote, 0 where there is none, and
everything else is as reset left it. The launch state is the spec's decision D25 (log entry 14). -/
def Obligations.LaunchIsResetWithTheImage : Prop :=
  ∀ img : List (Int × Int),
    (∀ c : Nibble, (launch img).cell c =
      ((img.reverse.find? fun p => p.1 % 16 == (c.toNat : Int)).map
        fun p => BitVec.ofInt 8 p.2).getD 0) ∧
    (launch img).setMem [] = State.reset ∧ BoundaryInv (launch img)

/-- R162: the launch state, and with it the whole run, is a function of what the cells of the image hold: the
order of the entries, entries written over, and entries that write 0 do not matter. -/
def Obligations.RunDependsOnTheImageAlone : Prop :=
  ∀ img img' : List (Int × Int), SameCells (launch img) (launch img') →
    ∀ n : Nat, runLoop n (launch img) = runLoop n (launch img')

/-- R98, R158 (payloads: the spec's decisions D8 and D9, log entry 3): a run that ends makes one report, the one
its last state's phase calls for, and going on past it changes neither the state nor the report; without a
report the machine stands between instruction steps. -/
def Obligations.RunEndsWithTheReportOfItsLastState : Prop :=
  ∀ (n : Nat) (s : State), s.phase = .fetch →
    ((runLoop n s).2 = none → (runLoop n s).1.phase = .fetch) ∧
    (∀ r, (runLoop n s).2 = some r →
      ((runLoop n s).1.phase = .halted ∧ r = .halt (runLoop n s).1.pc ∨
        (runLoop n s).1.phase = .faulted ∧ r = .invalidInstruction (runLoop n s).1.ir) ∧
      ∀ k : Nat, runLoop (n + k) s = runLoop n s)

/-- R98, R103, R160 (details: the spec's decision D11, log entry 11): pause mode only delays. The paused run loop
is the run of as many steps as there were acknowledgements, with its report; turn by turn the same holds, also
where the last step acknowledged ends in HALTED or FAULTED. That a turn asked for after the end, acknowledged or
not, answers the named fault is the model's choice, log entry 2. -/
def Obligations.PauseOnlyDelays : Prop :=
  (∀ (acks : List Bool) (s : State), s.phase = .fetch →
    pausedRunLoop true acks s = runLoop (acks.count true) s) ∧
  (∀ (acks : List Bool) (s : State), pausedRunLoop false acks s = runLoop acks.length s) ∧
  (∀ (acks : List Bool) (s t : State), s.phase = .fetch →
    Host.Core.run core (acks.count true) s = .next t → t.phase = .fetch →
    pausedRun true acks s = .next t) ∧
  (∀ (acks : List Bool) (s t : State), s.phase = .fetch →
    Host.Core.run core (acks.count true + 1) s = .next t →
    pausedRun true (acks ++ [true]) s = .next t ∧
    (∀ (ack : Bool) (rest : List Bool),
      (t.phase = .halted →
        pausedRun true (acks ++ true :: ack :: rest) s = .fault .noStepFromHalted) ∧
      (t.phase = .faulted →
        pausedRun true (acks ++ true :: ack :: rest) s = .fault .noStepFromFaulted))) ∧
  (∀ (acks : List Bool) (s : State),
    pausedRun false acks s = Host.Core.run core acks.length s)

/-- R102, R159 (contents: the spec's decision D10, log entry 10; the snapshot without `PHASE`: the model's, log
entry 21): the events of one step, in order, with the name of each opcode, the Fetch event by itself, and no
event without a sink. -/
def Obligations.TraceEventsOfAStep : Prop :=
  (∀ (b : Byte) (n : Nat) (m : Mnemonic),
    (n, m) ∈ [(0, .nop), (1, .lda), (2, .add), (3, .sub), (4, .sta), (5, .out), (6, .jmp), (7, .ldi),
      (8, .jc), (15, .hlt)] →
    b.toNat / 16 = n → opcodeName (decodeByte b) = .named m) ∧
  (∀ b : Byte, 9 ≤ b.toNat / 16 → b.toNat / 16 ≤ 14 →
    opcodeName (decodeByte b) = .undefined (BitVec.ofNat 4 (b.toNat / 16))) ∧
  (∀ s t : State, s.phase = .fetch → phaseStep s = .next t →
    tracePhase s = [.fetch t.pc t.mar t.ir]) ∧
  (∀ s t : State, s.phase = .fetch → step s = .next t →
    traceStep s =
      [.fetch (s.pc + 1) s.pc (s.cell s.pc), .decode (opcodeName (decodeByte (s.cell s.pc)))] ++
      (if (s.cell s.pc).toNat / 16 = 5 then [.output s.a] else []) ++ [.execute t.snapshot]) ∧
  (∀ (opts : Config.HostOptions) (s : State),
    offeredTrace opts s = if opts.traceSinkPresent then traceStep s else [])

/-- R151, R152, R156, R157, R160, R99 at the ports (the port list is the spec's decision D4; looking at `rst`
first is the model's, log entry 12, and so is what a host that breaks its contract sees, log entry 22): what
one turn does in each setting of the inputs. -/
def Obligations.PortsDriveTheEngine : Prop :=
  (∀ (p : PortIn) (s : State), p.rst = true → portTick p s = State.reset ∧ (portOut p s).out = none) ∧
  (∀ (p : PortIn) (s : State), p.rst = false → s.phase ≠ .halted → s.phase ≠ .faulted →
    p.run = false → p.ldEn = true →
    (portTick p s).cell p.ldAddr = p.ldData ∧ SameCellsBut p.ldAddr s (portTick p s) ∧
    (portTick p s).setMem s.mem = s ∧ (portOut p s).out = none) ∧
  (∀ (p : PortIn) (s : State), p.rst = false → p.run = false → p.ldEn = false →
    portTick p s = s ∧ (portOut p s).out = none) ∧
  (∀ (p : PortIn) (s : State), p.rst = false → p.run = true → s.phase = .fetch →
    p.pause = true → p.ack = false → portTick p s = s ∧ (portOut p s).out = none) ∧
  (∀ (p : PortIn) (s : State), p.rst = false → p.run = true → s.phase = .fetch →
    (p.pause = false ∨ p.ack = true) → step s = .next (portTick p s) ∧
    (portOut p s).out = if (s.cell s.pc).toNat / 16 = 5 then some s.a else none) ∧
  (∀ (p : PortIn) (s : State), p.rst = false → s.phase = .halted ∨ s.phase = .faulted →
    portTick p s = s ∧ (portOut p s).out = none)

/-- R156 with R151, R152, R155 and R192 (the port list is the spec's decision D4, log entry 12): whatever the state,
a reset turn, load turns and then turns with `run` up, paused or not, leave the machine where the run from the
launch state of that image stands after as many steps as were let through; and such a host keeps its
contract. -/
def Obligations.PortTurnsAreTheLaunchedRun : Prop :=
  ∀ (s : State) (r : PortIn) (loads runs : List PortIn), r.rst = true →
    (∀ p ∈ loads, p.rst = false ∧ p.run = false ∧ p.ldEn = true) →
    (∀ p ∈ runs, p.rst = false ∧ p.run = true ∧ p.ldEn = false) →
    portRun (r :: loads ++ runs) s =
      (runLoop (runs.countP fun p => !p.pause || p.ack)
        (launch (loads.map fun p => ((p.ldAddr.toNat : Int), (p.ldData.toNat : Int))))).1 ∧
    hostKeepsContract ((r :: loads ++ runs).map fun p => ⟨p, false⟩) = true

/-- R161 (a summary the spec derives), its columns 'host must' and 'host is assumed never to', turn by turn; a reset
turn is always allowed, and its other inputs do not count (the model's, log entry 22). In every other turn: a
load or a run needs a reset before it; a turn of the run loads nothing and no load has failed since the last
reset; and `run`, once raised since the last reset, stays up. -/
def Obligations.HostContractTurnByTurn : Prop :=
  ∀ ts : List HostTurn, hostKeepsContract ts = true ↔
    ∀ (before after : List HostTurn) (t : HostTurn), ts = before ++ t :: after → t.port.rst = false →
      let sinceReset := before.reverse.takeWhile fun q => !q.port.rst
      (t.port.run = true ∨ t.port.ldEn = true → ∃ q ∈ before, q.port.rst = true) ∧
      (t.port.run = true → t.port.ldEn = false ∧ t.loadFailed = false ∧
        ∀ q ∈ sinceReset, q.loadFailed = false) ∧
      ((∃ q ∈ sinceReset, q.port.run = true) → t.port.run = true)

/-- R103, R161 (the fairness of decision D11, log entry 11): with `run` up, no reset and a host that acknowledges
eventually, every state the run reaches without pause is reached at the ports, its end among them. -/
def Obligations.AcknowledgedRunReachesEveryState : Prop :=
  ∀ (turns : Nat → PortIn) (s t : State) (k : Nat), s.phase = .fetch →
    (∀ n, (turns n).rst = false ∧ (turns n).run = true) → HostAcknowledges turns →
    Host.Core.run core k s = .next t →
    ∃ n : Nat, portRun ((List.range n).map turns) s = t

/-- The host's placing of an instruction (log entry 14, the model's own): the byte goes where the next step
fetches it, nothing else changes but `PHASE`, and the next step runs what the decoder reads from the word. -/
def Obligations.PlacedWordIsRunNext : Prop :=
  ∀ (s : State) (w : Nat) (i : Instr), decodeTableWord 8 w = some i →
    (s.withFetchWord 8 w).cell s.pc = BitVec.ofNat 8 w ∧
    SameCellsBut s.pc s (s.withFetchWord 8 w) ∧
    ((s.withFetchWord 8 w).setMem s.mem).setPhase s.phase = s ∧
    step (s.withFetchWord 8 w) =
      exec i { s.withFetchWord 8 w with
        mar := s.pc, ir := BitVec.ofNat 8 w, pc := s.pc + 1, phase := .execute }
end

