-- ==== Sys2Proof/Laws/Decode.lean ====
section
/-! SUPPORT. The fields of a byte, and what each opcode nibble selects. -/

namespace Sys2Proof

@[simp] theorem toNat_opcodeOf (b : Byte) : (opcodeOf b).toNat = b.toNat / 16 := by
  have := b.isLt
  simp only [opcodeOf, BitVec.toNat_ofNat]; omega

@[simp] theorem toNat_operandOf (b : Byte) : (operandOf b).toNat = b.toNat % 16 := by
  simp only [operandOf, BitVec.toNat_ofNat]; omega

@[simp] theorem toNat_joinFields (op x : Nibble) :
    (joinFields op x).toNat = op.toNat * 16 + x.toNat := by
  have := op.isLt; have := x.isLt
  simp only [joinFields, BitVec.toNat_ofNat]; omega

@[simp] theorem opcodeOf_joinFields (op x : Nibble) : opcodeOf (joinFields op x) = op := by
  have := x.isLt
  apply BitVec.eq_of_toNat_eq; simp; omega

@[simp] theorem operandOf_joinFields (op x : Nibble) : operandOf (joinFields op x) = x := by
  have := x.isLt
  apply BitVec.eq_of_toNat_eq; simp; omega

/-- A byte is its two fields joined. -/
theorem joinFields_fields (b : Byte) : joinFields (opcodeOf b) (operandOf b) = b := by
  apply BitVec.eq_of_toNat_eq; simp; omega

/-- What decoding depends on: the row the opcode nibble selects, applied to the operand nibble. -/
theorem decodeByte_of_opcode {b : Byte} {n : Nat} (hn : n < 16) (h : (opcodeOf b).toNat = n) :
    decodeByte b = opcodeMap[n] (operandOf b) := by
  subst h; rfl

/-- Decoding a byte given by its fields. -/
theorem decodeByte_joinFields (op x : Nibble) :
    decodeByte (joinFields op x) = (opcodeMap[op.toNat]'op.isLt) x := by
  have h := opcodeOf_joinFields op x
  rw [decodeByte_of_opcode op.isLt (congrArg BitVec.toNat h), operandOf_joinFields]

/-- Every opcode nibble is one of the sixteen. -/
theorem opcode_cases (b : Byte) : (opcodeOf b).toNat < 16 := (opcodeOf b).isLt

end Sys2Proof
end

