-- ==== Sys2Proof/Laws/State.lean ====
section
/-! SUPPORT. One lemma per field per update of the state, and the fields of the reset state: no later proof
unfolds a record update. -/

namespace Sys2Proof.Machine

variable (s : State)

@[simp] theorem State.setA_a (v : Byte) : (s.setA v).a = v := rfl
@[simp] theorem State.setA_b (v : Byte) : (s.setA v).b = s.b := rfl
@[simp] theorem State.setA_pc (v : Byte) : (s.setA v).pc = s.pc := rfl
@[simp] theorem State.setA_mar (v : Byte) : (s.setA v).mar = s.mar := rfl
@[simp] theorem State.setA_ir (v : Byte) : (s.setA v).ir = s.ir := rfl
@[simp] theorem State.setA_carry (v : Byte) : (s.setA v).carry = s.carry := rfl
@[simp] theorem State.setA_mem (v : Byte) : (s.setA v).mem = s.mem := rfl
@[simp] theorem State.setA_phase (v : Byte) : (s.setA v).phase = s.phase := rfl
@[simp] theorem State.setA_outLog (v : Byte) : (s.setA v).outLog = s.outLog := rfl

@[simp] theorem State.setB_a (v : Byte) : (s.setB v).a = s.a := rfl
@[simp] theorem State.setB_b (v : Byte) : (s.setB v).b = v := rfl
@[simp] theorem State.setB_pc (v : Byte) : (s.setB v).pc = s.pc := rfl
@[simp] theorem State.setB_mar (v : Byte) : (s.setB v).mar = s.mar := rfl
@[simp] theorem State.setB_ir (v : Byte) : (s.setB v).ir = s.ir := rfl
@[simp] theorem State.setB_carry (v : Byte) : (s.setB v).carry = s.carry := rfl
@[simp] theorem State.setB_mem (v : Byte) : (s.setB v).mem = s.mem := rfl
@[simp] theorem State.setB_phase (v : Byte) : (s.setB v).phase = s.phase := rfl
@[simp] theorem State.setB_outLog (v : Byte) : (s.setB v).outLog = s.outLog := rfl

@[simp] theorem State.setPc_a (v : Nibble) : (s.setPc v).a = s.a := rfl
@[simp] theorem State.setPc_b (v : Nibble) : (s.setPc v).b = s.b := rfl
@[simp] theorem State.setPc_pc (v : Nibble) : (s.setPc v).pc = v := rfl
@[simp] theorem State.setPc_mar (v : Nibble) : (s.setPc v).mar = s.mar := rfl
@[simp] theorem State.setPc_ir (v : Nibble) : (s.setPc v).ir = s.ir := rfl
@[simp] theorem State.setPc_carry (v : Nibble) : (s.setPc v).carry = s.carry := rfl
@[simp] theorem State.setPc_mem (v : Nibble) : (s.setPc v).mem = s.mem := rfl
@[simp] theorem State.setPc_phase (v : Nibble) : (s.setPc v).phase = s.phase := rfl
@[simp] theorem State.setPc_outLog (v : Nibble) : (s.setPc v).outLog = s.outLog := rfl

@[simp] theorem State.setMar_a (v : Nibble) : (s.setMar v).a = s.a := rfl
@[simp] theorem State.setMar_b (v : Nibble) : (s.setMar v).b = s.b := rfl
@[simp] theorem State.setMar_pc (v : Nibble) : (s.setMar v).pc = s.pc := rfl
@[simp] theorem State.setMar_mar (v : Nibble) : (s.setMar v).mar = v := rfl
@[simp] theorem State.setMar_ir (v : Nibble) : (s.setMar v).ir = s.ir := rfl
@[simp] theorem State.setMar_carry (v : Nibble) : (s.setMar v).carry = s.carry := rfl
@[simp] theorem State.setMar_mem (v : Nibble) : (s.setMar v).mem = s.mem := rfl
@[simp] theorem State.setMar_phase (v : Nibble) : (s.setMar v).phase = s.phase := rfl
@[simp] theorem State.setMar_outLog (v : Nibble) : (s.setMar v).outLog = s.outLog := rfl

@[simp] theorem State.setIr_a (v : Byte) : (s.setIr v).a = s.a := rfl
@[simp] theorem State.setIr_b (v : Byte) : (s.setIr v).b = s.b := rfl
@[simp] theorem State.setIr_pc (v : Byte) : (s.setIr v).pc = s.pc := rfl
@[simp] theorem State.setIr_mar (v : Byte) : (s.setIr v).mar = s.mar := rfl
@[simp] theorem State.setIr_ir (v : Byte) : (s.setIr v).ir = v := rfl
@[simp] theorem State.setIr_carry (v : Byte) : (s.setIr v).carry = s.carry := rfl
@[simp] theorem State.setIr_mem (v : Byte) : (s.setIr v).mem = s.mem := rfl
@[simp] theorem State.setIr_phase (v : Byte) : (s.setIr v).phase = s.phase := rfl
@[simp] theorem State.setIr_outLog (v : Byte) : (s.setIr v).outLog = s.outLog := rfl

@[simp] theorem State.setCarry_a (v : Bool) : (s.setCarry v).a = s.a := rfl
@[simp] theorem State.setCarry_b (v : Bool) : (s.setCarry v).b = s.b := rfl
@[simp] theorem State.setCarry_pc (v : Bool) : (s.setCarry v).pc = s.pc := rfl
@[simp] theorem State.setCarry_mar (v : Bool) : (s.setCarry v).mar = s.mar := rfl
@[simp] theorem State.setCarry_ir (v : Bool) : (s.setCarry v).ir = s.ir := rfl
@[simp] theorem State.setCarry_carry (v : Bool) : (s.setCarry v).carry = v := rfl
@[simp] theorem State.setCarry_mem (v : Bool) : (s.setCarry v).mem = s.mem := rfl
@[simp] theorem State.setCarry_phase (v : Bool) : (s.setCarry v).phase = s.phase := rfl
@[simp] theorem State.setCarry_outLog (v : Bool) : (s.setCarry v).outLog = s.outLog := rfl

@[simp] theorem State.setMem_a (v : Memory) : (s.setMem v).a = s.a := rfl
@[simp] theorem State.setMem_b (v : Memory) : (s.setMem v).b = s.b := rfl
@[simp] theorem State.setMem_pc (v : Memory) : (s.setMem v).pc = s.pc := rfl
@[simp] theorem State.setMem_mar (v : Memory) : (s.setMem v).mar = s.mar := rfl
@[simp] theorem State.setMem_ir (v : Memory) : (s.setMem v).ir = s.ir := rfl
@[simp] theorem State.setMem_carry (v : Memory) : (s.setMem v).carry = s.carry := rfl
@[simp] theorem State.setMem_mem (v : Memory) : (s.setMem v).mem = v := rfl
@[simp] theorem State.setMem_phase (v : Memory) : (s.setMem v).phase = s.phase := rfl
@[simp] theorem State.setMem_outLog (v : Memory) : (s.setMem v).outLog = s.outLog := rfl

@[simp] theorem State.setPhase_a (v : Phase) : (s.setPhase v).a = s.a := rfl
@[simp] theorem State.setPhase_b (v : Phase) : (s.setPhase v).b = s.b := rfl
@[simp] theorem State.setPhase_pc (v : Phase) : (s.setPhase v).pc = s.pc := rfl
@[simp] theorem State.setPhase_mar (v : Phase) : (s.setPhase v).mar = s.mar := rfl
@[simp] theorem State.setPhase_ir (v : Phase) : (s.setPhase v).ir = s.ir := rfl
@[simp] theorem State.setPhase_carry (v : Phase) : (s.setPhase v).carry = s.carry := rfl
@[simp] theorem State.setPhase_mem (v : Phase) : (s.setPhase v).mem = s.mem := rfl
@[simp] theorem State.setPhase_phase (v : Phase) : (s.setPhase v).phase = v := rfl
@[simp] theorem State.setPhase_outLog (v : Phase) : (s.setPhase v).outLog = s.outLog := rfl

@[simp] theorem State.setOutLog_a (v : List Byte) : (s.setOutLog v).a = s.a := rfl
@[simp] theorem State.setOutLog_b (v : List Byte) : (s.setOutLog v).b = s.b := rfl
@[simp] theorem State.setOutLog_pc (v : List Byte) : (s.setOutLog v).pc = s.pc := rfl
@[simp] theorem State.setOutLog_mar (v : List Byte) : (s.setOutLog v).mar = s.mar := rfl
@[simp] theorem State.setOutLog_ir (v : List Byte) : (s.setOutLog v).ir = s.ir := rfl
@[simp] theorem State.setOutLog_carry (v : List Byte) : (s.setOutLog v).carry = s.carry := rfl
@[simp] theorem State.setOutLog_mem (v : List Byte) : (s.setOutLog v).mem = s.mem := rfl
@[simp] theorem State.setOutLog_phase (v : List Byte) : (s.setOutLog v).phase = s.phase := rfl
@[simp] theorem State.setOutLog_outLog (v : List Byte) : (s.setOutLog v).outLog = v := rfl

@[simp] theorem State.reset_a : State.reset.a = 0 := rfl
@[simp] theorem State.reset_b : State.reset.b = 0 := rfl
@[simp] theorem State.reset_pc : State.reset.pc = 0 := rfl
@[simp] theorem State.reset_mar : State.reset.mar = 0 := rfl
@[simp] theorem State.reset_ir : State.reset.ir = 0 := rfl
@[simp] theorem State.reset_carry : State.reset.carry = false := rfl
@[simp] theorem State.reset_mem : State.reset.mem = [] := rfl
@[simp] theorem State.reset_phase : State.reset.phase = .fetch := rfl
@[simp] theorem State.reset_outLog : State.reset.outLog = [] := rfl

/-- Two states are equal when their nine fields are. -/
theorem State.ext_fields {s t : State} (ha : t.a = s.a) (hb : t.b = s.b) (hpc : t.pc = s.pc)
    (hmar : t.mar = s.mar) (hir : t.ir = s.ir) (hcarry : t.carry = s.carry) (hmem : t.mem = s.mem)
    (hphase : t.phase = s.phase) (hout : t.outLog = s.outLog) : t = s := by
  cases s; cases t; simp_all

end Sys2Proof.Machine
end

