-- ==== Sys2Proof/Laws/Memory.lean ====
section
/-! SUPPORT. The laws of memory: a cell read after a store, and the canonical form kept by every memory
operation (R27, R52). -/

namespace Sys2Proof.Machine

/-! ### The address decoder -/

theorem cellIndex_lt (addr : Int) : cellIndex addr < 16 := by
  simp only [cellIndex, Config.memCells]; omega

@[simp] theorem cellIndex_nibble (x : Nibble) : cellIndex (x.toNat : Int) = x.toNat := by
  have := x.isLt
  simp only [cellIndex, Config.memCells]; omega

/-! ### Reading after inserting, dropping, storing -/

theorem memLookup_of_absent {m : Memory} {k : Nat} (h : ∀ c ∈ m, c.1 ≠ k) :
    memLookup m k = Memory.unlisted := by
  induction m with
  | nil => rfl
  | cons c rest ih =>
    simp only [List.mem_cons, forall_eq_or_imp] at h
    simp [memLookup, h.1, ih h.2]

theorem memLookup_filter_same (m : Memory) (k : Nat) :
    memLookup (m.filter fun c => c.1 != k) k = Memory.unlisted :=
  memLookup_of_absent fun c hc => by simpa using (List.mem_filter.mp hc).2

theorem memLookup_filter_other (m : Memory) {k j : Nat} (h : j ≠ k) :
    memLookup (m.filter fun c => c.1 != k) j = memLookup m j := by
  induction m with
  | nil => rfl
  | cons c rest ih =>
    by_cases hc : c.1 = k
    · have : c.1 ≠ j := fun e => h (e.symm.trans hc)
      simp [hc, memLookup, ih, hc ▸ this]
    · simp [hc, memLookup, ih]

theorem memLookup_insert_other (m : Memory) {k j : Nat} (v : Byte) (h : j ≠ k) :
    memLookup (memInsert k v m) j = memLookup m j := by
  induction m with
  | nil => simp [memInsert, memLookup, Ne.symm h]
  | cons c rest ih =>
    simp only [memInsert]
    split
    · simp [memLookup, Ne.symm h]
    · simp [memLookup, ih]

theorem memLookup_insert_same {m : Memory} {k : Nat} (v : Byte) (h : ∀ c ∈ m, c.1 ≠ k) :
    memLookup (memInsert k v m) k = v := by
  induction m with
  | nil => simp [memInsert, memLookup]
  | cons c rest ih =>
    simp only [List.mem_cons, forall_eq_or_imp] at h
    simp only [memInsert]
    split
    · simp [memLookup]
    · simp [memLookup, h.1, ih h.2]

/-- Read after store: the stored cell gives the stored value, every other cell what it gave before. It holds
of any list, canonical or not. -/
theorem memLookup_memStore (m : Memory) (k j : Nat) (v : Byte) :
    memLookup (memStore m k v) j = if j = k then v else memLookup m j := by
  unfold memStore
  have absent : ∀ c ∈ m.filter (fun c => c.1 != k), c.1 ≠ k := fun c hc => by
    simpa using (List.mem_filter.mp hc).2
  by_cases hj : j = k
  · subst hj
    split
    · rename_i hv; simp [memLookup_filter_same, hv]
    · simp [memLookup_insert_same v absent]
  · simp only [hj, if_false]
    split
    · exact memLookup_filter_other m hj
    · rw [memLookup_insert_other _ v hj, memLookup_filter_other m hj]

/-! ### The canonical form -/

theorem mem_memInsert {m : Memory} {k : Nat} {v : Byte} {c : Host.Cell}
    (h : c ∈ memInsert k v m) : c = (k, v) ∨ c ∈ m := by
  induction m with
  | nil => simpa [memInsert] using h
  | cons d rest ih =>
    simp only [memInsert] at h
    split at h
    · simpa using h
    · rcases List.mem_cons.mp h with h | h
      · exact .inr (by simp [h])
      · exact (ih h).imp id fun h => List.mem_cons_of_mem _ h

theorem memInsert_sorted {m : Memory} {k : Nat} (v : Byte)
    (hm : m.Pairwise fun c d => c.1 < d.1) (h : ∀ c ∈ m, c.1 ≠ k) :
    (memInsert k v m).Pairwise fun c d => c.1 < d.1 := by
  induction m with
  | nil => simp [memInsert]
  | cons c rest ih =>
    simp only [List.mem_cons, forall_eq_or_imp] at h
    obtain ⟨hc, hrest⟩ := List.pairwise_cons.mp hm
    simp only [memInsert]
    split
    · rename_i hk
      refine List.pairwise_cons.mpr ⟨fun d hd => ?_, hm⟩
      rcases List.mem_cons.mp hd with rfl | hd
      · exact hk
      · exact hk.trans (hc d hd)
    · rename_i hk
      refine List.pairwise_cons.mpr ⟨fun d hd => ?_, ih hrest h.2⟩
      rcases mem_memInsert hd with rfl | hd
      · exact lt_of_le_of_ne (not_lt.mp hk) h.1
      · exact hc d hd

/-- A store into one of the 16 cells keeps the canonical form. -/
theorem memStore_wf {m : Memory} {k : Nat} (v : Byte) (hm : Memory.wf m) (hk : k < Config.memCells) :
    Memory.wf (memStore m k v) := by
  unfold memStore
  have hs : (m.filter fun c => c.1 != k).Pairwise fun c d => c.1 < d.1 := hm.1.filter _
  have hc : ∀ c ∈ m.filter (fun c => c.1 != k), c.1 < Config.memCells ∧ c.2 ≠ Memory.unlisted :=
    fun c hc => hm.2 c (List.mem_filter.mp hc).1
  split
  · exact ⟨hs, hc⟩
  · rename_i hv
    refine ⟨memInsert_sorted v hs fun c hc => by simpa using (List.mem_filter.mp hc).2, ?_⟩
    intro c hcm
    rcases mem_memInsert hcm with rfl | hcm
    · exact ⟨hk, hv⟩
    · exact hc c hcm

/-- `MemWrite` keeps the canonical form, whatever integers it is given. -/
theorem memWrite_wf {m : Memory} (addr v : Int) (hm : Memory.wf m) : Memory.wf (memWrite m addr v) :=
  memStore_wf _ hm (cellIndex_lt addr)

/-- Reset memory is canonical. -/
theorem reset_mem_wf : Memory.wf State.reset.mem := by decide

/-! ### The engine's own accesses -/

@[simp] theorem State.cell_setA (s : State) (v : Byte) (c : Nibble) : (s.setA v).cell c = s.cell c := rfl
@[simp] theorem State.cell_setB (s : State) (v : Byte) (c : Nibble) : (s.setB v).cell c = s.cell c := rfl
@[simp] theorem State.cell_setPc (s : State) (v c : Nibble) : (s.setPc v).cell c = s.cell c := rfl
@[simp] theorem State.cell_setMar (s : State) (v c : Nibble) : (s.setMar v).cell c = s.cell c := rfl
@[simp] theorem State.cell_setIr (s : State) (v : Byte) (c : Nibble) : (s.setIr v).cell c = s.cell c := rfl
@[simp] theorem State.cell_setCarry (s : State) (v : Bool) (c : Nibble) :
    (s.setCarry v).cell c = s.cell c := rfl
@[simp] theorem State.cell_setPhase (s : State) (v : Phase) (c : Nibble) :
    (s.setPhase v).cell c = s.cell c := rfl
@[simp] theorem State.cell_setOutLog (s : State) (v : List Byte) (c : Nibble) :
    (s.setOutLog v).cell c = s.cell c := rfl

@[simp] theorem State.storeCell_a (s : State) (x : Nibble) (v : Byte) : (s.storeCell x v).a = s.a := rfl
@[simp] theorem State.storeCell_b (s : State) (x : Nibble) (v : Byte) : (s.storeCell x v).b = s.b := rfl
@[simp] theorem State.storeCell_pc (s : State) (x : Nibble) (v : Byte) : (s.storeCell x v).pc = s.pc := rfl
@[simp] theorem State.storeCell_mar (s : State) (x : Nibble) (v : Byte) : (s.storeCell x v).mar = s.mar := rfl
@[simp] theorem State.storeCell_ir (s : State) (x : Nibble) (v : Byte) : (s.storeCell x v).ir = s.ir := rfl
@[simp] theorem State.storeCell_carry (s : State) (x : Nibble) (v : Byte) : (s.storeCell x v).carry = s.carry := rfl
@[simp] theorem State.storeCell_phase (s : State) (x : Nibble) (v : Byte) : (s.storeCell x v).phase = s.phase := rfl
@[simp] theorem State.storeCell_outLog (s : State) (x : Nibble) (v : Byte) : (s.storeCell x v).outLog = s.outLog := rfl

theorem byte_ofInt_toNat (v : Byte) : BitVec.ofInt 8 (v.toNat : Int) = v := by
  simp [BitVec.ofInt_natCast]

/-- Reading a cell after the engine stored to one (R58 c). -/
theorem State.cell_storeCell (s : State) (x c : Nibble) (v : Byte) :
    (s.storeCell x v).cell c = if c = x then v else s.cell c := by
  simp only [State.cell, State.storeCell, State.setMem_mem, memRead, memWrite, cellIndex_nibble,
    memLookup_memStore, byte_ofInt_toNat, BitVec.toNat_inj]

/-- A store by the engine keeps the canonical form. -/
theorem State.storeCell_wf {s : State} (x : Nibble) (v : Byte) (h : s.mem.wf) :
    (s.storeCell x v).mem.wf := memWrite_wf _ _ h

end Sys2Proof.Machine
end

