-- ==== Sys2Proof/Laws/Ops.lean ====
section
/-! SUPPORT. What each shared operation does, said once, as a plain sequence of writes or as a number. -/

namespace Sys2Proof.Machine

variable (s : State)

@[simp] theorem nextAddress_eq (pc : Nibble) : nextAddress pc = pc + 1 := by
  have one : (1 : Nibble).toNat = 1 := rfl
  apply BitVec.eq_of_toNat_eq
  simp only [nextAddress, BitVec.toNat_ofNat, BitVec.toNat_add, one]; omega

@[simp] theorem State.latchDataAddress_eq (x : Nibble) : s.latchDataAddress x = s.setMar x := rfl
@[simp] theorem State.backToFetch_eq : s.backToFetch = s.setPhase .fetch := rfl
@[simp] theorem State.raise_halt_eq : s.raise .halt = s.setPhase .halted := rfl
@[simp] theorem State.raise_invalid_eq : s.raise .invalidInstruction = s.setPhase .faulted := rfl
@[simp] theorem State.emit_eq (v : Byte) : s.emit v = s.setOutLog (s.outLog ++ [v]) := rfl
@[simp] theorem dataAddress_eq (x : Nibble) : dataAddress x = x := rfl
@[simp] theorem jumpTarget_eq (x : Nibble) : jumpTarget x = x := rfl
@[simp] theorem loadData_eq (x : Nibble) : loadData x s = (s.cell x, s.setMar x) := rfl
@[simp] theorem storeData_eq (x : Nibble) (v : Byte) :
    storeData x v s = (s.setMar x).storeCell x v := rfl

/-- A store changes memory alone. -/
theorem State.storeCell_eq (x : Nibble) (v : Byte) :
    s.storeCell x v = s.setMem (s.storeCell x v).mem := rfl

@[simp] theorem toNat_immediate (x : Nibble) : (immediate x).toNat = x.toNat := by
  have := x.isLt
  simp only [immediate, BitVec.toNat_ofNat]; omega

/-- The narrowed result as a number: floor-mod 256 (R9, R122). -/
theorem toNat_narrow (t : Int) : ((narrow t).toNat : Int) = t % 256 := by
  simp only [narrow, BitVec.toNat_ofInt]; omega

/-- The sum narrowed is the 8-bit wrapping sum (R123). -/
theorem narrow_exactSum (a m : Byte) : narrow (exactSum a m) = a + m := by
  apply BitVec.eq_of_toNat_eq
  have h := toNat_narrow (exactSum a m)
  simp only [exactSum, BitVec.toNat_add] at h ⊢; omega

/-- The difference narrowed is the 8-bit wrapping difference (R124). -/
theorem narrow_exactDiff (a m : Byte) : narrow (exactDiff a m) = a - m := by
  apply BitVec.eq_of_toNat_eq
  have h := toNat_narrow (exactDiff a m)
  have := a.isLt; have := m.isLt
  simp only [exactDiff, BitVec.toNat_sub] at h ⊢; omega

/-- FETCH as a sequence of writes (R91). -/
theorem fetchPhase_eq :
    fetchPhase s = (((s.setMar s.pc).setIr (s.cell s.pc)).setPc (s.pc + 1)).setPhase .decode := by
  simp [fetchPhase]

end Sys2Proof.Machine
end

