-- ==== Sys2Proof/Laws/Exec.lean ====
section
/-! SUPPORT. Each instruction's EXECUTE effect as one equation in plain writes, and the step as an equation
by phase: later proofs cite these and unfold no meaning. -/

namespace Sys2Proof.Machine

variable (x : Nibble) (s : State)

theorem exec_nop : exec .nop s = .next (s.setPhase .fetch) := rfl

theorem exec_lda : exec (.lda x) s = .next (((s.setMar x).setA (s.cell x)).setPhase .fetch) := rfl

theorem exec_add : exec (.add x) s =
    .next (((((s.setMar x).setB (s.cell x)).setA (narrow (exactSum s.a (s.cell x)))).setCarry
      (carryOfSum (exactSum s.a (s.cell x)))).setPhase .fetch) := rfl

theorem exec_sub : exec (.sub x) s =
    .next (((((s.setMar x).setB (s.cell x)).setA (narrow (exactDiff s.a (s.cell x)))).setCarry
      (carryOfDiff (exactDiff s.a (s.cell x)))).setPhase .fetch) := rfl

theorem exec_sta : exec (.sta x) s = .next (((s.setMar x).storeCell x s.a).setPhase .fetch) := rfl

theorem exec_out : exec .out s = .next ((s.setOutLog (s.outLog ++ [s.a])).setPhase .fetch) := rfl

theorem exec_jmp : exec (.jmp x) s = .next ((s.setPc x).setPhase .fetch) := rfl

theorem exec_ldi : exec (.ldi x) s = .next ((s.setA (immediate x)).setPhase .fetch) := rfl

theorem exec_jc : exec (.jc x) s =
    .next ((s.setPc (if s.carry then x else s.pc)).setPhase .fetch) := by
  cases h : s.carry
  · simp [exec, execJc, h]; rfl
  · simp [exec, execJc, h]

theorem exec_hlt : exec .hlt s = .next (s.setPhase .halted) := rfl

theorem exec_undefined9 : exec (.undefined9 x) s = .next (s.setPhase .faulted) := rfl
theorem exec_undefined10 : exec (.undefined10 x) s = .next (s.setPhase .faulted) := rfl
theorem exec_undefined11 : exec (.undefined11 x) s = .next (s.setPhase .faulted) := rfl
theorem exec_undefined12 : exec (.undefined12 x) s = .next (s.setPhase .faulted) := rfl
theorem exec_undefined13 : exec (.undefined13 x) s = .next (s.setPhase .faulted) := rfl
theorem exec_undefined14 : exec (.undefined14 x) s = .next (s.setPhase .faulted) := rfl

/-- The instruction step from FETCH: the decoded byte's effect on the fetched state (R96). -/
theorem step_of_fetch (h : s.phase = .fetch) : step s = exec (decodeByte (s.cell s.pc))
    ((((s.setMar s.pc).setIr (s.cell s.pc)).setPc (s.pc + 1)).setPhase .execute) := by
  simp only [step, instructionStep, h, executePhase, decodePhase, fetchPhase_eq]; rfl

/-- The transition of the controller out of each phase that has one (R90). -/
theorem phaseStep_of_fetch (h : s.phase = .fetch) : phaseStep s = .next (fetchPhase s) := by
  simp only [phaseStep, h]

theorem phaseStep_of_decode (h : s.phase = .decode) : phaseStep s = .next (decodePhase s) := by
  simp only [phaseStep, h]

theorem phaseStep_of_execute (h : s.phase = .execute) : phaseStep s = exec (decodeByte s.ir) s := by
  simp only [phaseStep, h, executePhase]

/-- Taking an outcome apart. -/
theorem next_inj {s t : State} (h : (.next s : Host.Outcome State Fault Refusal) = .next t) : s = t := by
  injection h

end Sys2Proof.Machine
end

