-- ==== Sys2Proof/Laws/HostInterface.lean ====
section
/-! SUPPORT. What the host-side operations do: the pause, lists of turns, the stages of the host's contract. -/

namespace Sys2Proof.Machine

@[simp] theorem pausedStep_unpaused (ack : Bool) (s : State) : pausedStep false ack s = step s := by
  simp [pausedStep]
@[simp] theorem pausedStep_acknowledged (pause : Bool) (s : State) : pausedStep pause true s = step s := by
  simp [pausedStep]

/-- The engine waits between instruction steps only (R103). -/
theorem pausedStep_waiting (s : State) (h : s.phase = .fetch) : pausedStep true false s = .next s := by
  simp [pausedStep, h]

@[simp] theorem portRun_nil (s : State) : portRun [] s = s := rfl
@[simp] theorem portRun_cons (p : PortIn) (ps : List PortIn) (s : State) :
    portRun (p :: ps) s = portRun ps (portTick p s) := rfl
theorem portRun_append (ps qs : List PortIn) (s : State) :
    portRun (ps ++ qs) s = portRun qs (portRun ps s) := by simp [portRun]

/-- With `run` up and no reset, outside the terminal phases, a turn is the paused step. -/
theorem portTick_running (p : PortIn) (s t : State) (hr : p.rst = false) (hu : p.run = true)
    (hh : s.phase ≠ .halted) (hf : s.phase ≠ .faulted) (h : pausedStep p.pause p.ack s = .next t) :
    portTick p s = t := by simp [portTick, hr, hu, hh, hf, h]

theorem HostStage.afterAll_append (g : HostStage) (ts us : List HostTurn) :
    g.afterAll (ts ++ us) = (g.afterAll ts).bind fun h => h.afterAll us := by
  induction ts generalizing g with
  | nil => rfl
  | cons t ts ih =>
    simp only [List.cons_append, HostStage.afterAll]
    cases g.after t with
    | none => rfl
    | some h => exact ih h

end Sys2Proof.Machine
end

