-- ==== Sys2Proof/Laws/PerInstr.lean ====
section
/-! SUPPORT. A statement about every instruction as syntax, one lemma per constructor. -/

namespace Sys2Proof.Laws.Encoding

/-- The canonical encoding of a well-formed instruction has its opcode nibble high and its operand nibble
low, and nothing else (R71). -/
def Statement (i : Instr) : Prop :=
  i.wellFormed = true →
    opcodeOf (encode i) = i.opcode ∧ operandOf (encode i) = i.operandField

theorem of_fields (i : Instr) : Statement i := fun _ => by simp [encode]

theorem nop : Statement .nop :=
  of_fields _

theorem lda (x : Nibble) : Statement (.lda x) :=
  of_fields _

theorem add (x : Nibble) : Statement (.add x) :=
  of_fields _

theorem sub (x : Nibble) : Statement (.sub x) :=
  of_fields _

theorem sta (x : Nibble) : Statement (.sta x) :=
  of_fields _

theorem out : Statement .out :=
  of_fields _

theorem jmp (x : Nibble) : Statement (.jmp x) :=
  of_fields _

theorem ldi (x : Nibble) : Statement (.ldi x) :=
  of_fields _

theorem jc (x : Nibble) : Statement (.jc x) :=
  of_fields _

theorem hlt : Statement .hlt :=
  of_fields _

theorem undefined9 (x : Nibble) : Statement (.undefined9 x) :=
  of_fields _

theorem undefined10 (x : Nibble) : Statement (.undefined10 x) :=
  of_fields _

theorem undefined11 (x : Nibble) : Statement (.undefined11 x) :=
  of_fields _

theorem undefined12 (x : Nibble) : Statement (.undefined12 x) :=
  of_fields _

theorem undefined13 (x : Nibble) : Statement (.undefined13 x) :=
  of_fields _

theorem undefined14 (x : Nibble) : Statement (.undefined14 x) :=
  of_fields _

end Sys2Proof.Laws.Encoding
end

