-- ==== Sys2Proof/Tests/Slice0.lean ====
section
/-! SUPPORT. Tests with expected results from spec/95_test_vectors.md and 30_encoding.md (the vector's id stands
in each comment), the smoke test of WellFormed, and a witness for the hypotheses of each statement. -/

namespace Sys2Proof.Tests

open Sys2Proof.Machine Sys2Proof.Safety

/-! ### WellFormed refuses each ill-formed term (R78) -/

theorem test_wellFormed_line : (Line.mk 15 (.withOperand .jc 15)).wellFormed = true := by decide
theorem test_wellFormed_instr : (Instr.jc 15).wellFormed = true := by decide
theorem test_illFormed_addr : (Line.mk 16 (.byte 0)).wellFormed = false := by decide
theorem test_illFormed_operand : (Line.mk 0 (.withOperand .lda 16)).wellFormed = false := by decide
theorem test_illFormed_operand_on_plain : (Line.mk 0 (.withOperand .nop 0)).wellFormed = false := by decide
theorem test_illFormed_missing_operand : (Line.mk 0 (.plain .lda)).wellFormed = false := by decide
theorem test_illFormed_byte : (Line.mk 0 (.byte 256)).wellFormed = false := by decide

/-! ### Decoding, words written out bit by bit: one per constructor (R80, VD1 to VD20) -/

theorem test_decode_nop : decodeByte 0b00000000#8 = .nop := by decide          -- VD1
theorem test_decode_lda : decodeByte 0b00011110#8 = .lda 14 := by decide       -- VD2
theorem test_decode_add : decodeByte 0b00101111#8 = .add 15 := by decide       -- VD3
theorem test_decode_sub : decodeByte 0b00110000#8 = .sub 0 := by decide        -- VD4
theorem test_decode_sta : decodeByte 0b01001110#8 = .sta 14 := by decide       -- VD5
theorem test_decode_out : decodeByte 0b01010000#8 = .out := by decide          -- VD6
theorem test_decode_out_ignored : decodeByte 0b01011010#8 = .out := by decide  -- VD7
theorem test_decode_jmp : decodeByte 0b01101111#8 = .jmp 15 := by decide       -- VD8
theorem test_decode_ldi : decodeByte 0b01111111#8 = .ldi 15 := by decide       -- VD9
theorem test_decode_jc : decodeByte 0b10000101#8 = .jc 5 := by decide          -- VD10
theorem test_decode_9 : decodeByte 0b10010000#8 = .undefined9 0 := by decide   -- VD12
theorem test_decode_10 : decodeByte 0b10100101#8 = .undefined10 5 := by decide -- VD13
theorem test_decode_11 : decodeByte 0b10110000#8 = .undefined11 0 := by decide -- VD14
theorem test_decode_12 : decodeByte 0b11000001#8 = .undefined12 1 := by decide -- VD15
theorem test_decode_13 : decodeByte 0b11011110#8 = .undefined13 14 := by decide -- VD16
theorem test_decode_14 : decodeByte 0b11101111#8 = .undefined14 15 := by decide -- VD18
theorem test_decode_hlt : decodeByte 0b11110000#8 = .hlt := by decide          -- VD19
theorem test_decode_hlt_ignored : decodeByte 0b11111111#8 = .hlt := by decide  -- VD20
theorem test_decodeTableWord : decodeTableWord 8 0x84 = some (.jc 4) := by decide
theorem test_decodeBytes_empty : decodeBytes [] = .error .noByte := rfl

/-! ### One step on a small state -/

/-- A state in FETCH with the given registers and cells, everything else 0: the vectors' convention. -/
def before (pc : Nibble) (a b : Byte) (carry : Bool) (cells : List (Int × Int)) : State :=
  { installImage cells State.reset with pc := pc, a := a, b := b, carry := carry }

/-- A property of the next state; false where there is none. -/
def after (s : State) (p : State → Bool) : Bool :=
  match step s with
  | .next t => p t
  | .fault _ => false
  | .refused _ => false

-- VF3: stale MAR and IR are overwritten, a NOP with operand 13
theorem test_nop : after { before 7 0xAA 0xBB true [(7, 0x0D)] with mar := 3, ir := 0x12 } (fun t =>
    t == { before 8 0xAA 0xBB true [(7, 0x0D)] with mar := 7, ir := 0x0D }) = true := by decide
-- VL1
theorem test_lda : after (before 2 0x55 0 false [(2, 0x1E), (14, 0xC3)]) (fun t =>
    (t.a, t.pc, t.mar, t.ir) == (0xC3, 3, 14, 0x1E)) = true := by decide
-- VL2: its own cell, B and CARRY untouched
theorem test_lda_own_cell : after (before 2 0x55 9 true [(2, 0x12)]) (fun t =>
    (t.a, t.b, t.carry, t.pc, t.mar) == (0x12, 9, true, 3, 2)) = true := by decide
-- VT2: a store over its own cell
theorem test_sta_own_cell : after (before 5 0x07 0 false [(5, 0x45)]) (fun t =>
    (t.cell 5, t.pc, t.mar, t.ir) == (0x07, 6, 5, 0x45)) = true := by decide
-- VT1: over old data
theorem test_sta : after (before 1 0xAB 0 true [(1, 0x4E), (14, 0x11)]) (fun t =>
    (t.cell 14, t.cell 1, t.a, t.carry) == (0xAB, 0x4E, 0xAB, true)) = true := by decide
-- VI2: zero-extended, nothing of the opcode or the old A left
theorem test_ldi : after (before 0 0xF0 0 false [(0, 0x7F)]) (fun t =>
    (t.a, t.pc, t.mar, t.ir) == (0x0F, 1, 0, 0x7F)) = true := by decide
-- VA3: sum exactly 256
theorem test_add_wraps : after (before 0 255 0 false [(0, 0x2F), (15, 1)]) (fun t =>
    (t.a, t.b, t.carry, t.mar, t.pc) == (0, 1, true, 15, 1)) = true := by decide
-- VA5: sum exactly 255, the old carry neither added nor kept
theorem test_add_no_carry_in : after (before 0 200 0 true [(0, 0x2F), (15, 55)]) (fun t =>
    (t.a, t.b, t.carry) == (255, 55, false)) = true := by decide
-- VB1, the source's example: 5 - 10
theorem test_sub_borrows : after (before 0 5 200 false [(0, 0x3F), (15, 10)]) (fun t =>
    (t.a, t.b, t.carry, t.mar) == (251, 10, true, 15)) = true := by decide
-- VB9: compared with the loaded operand, not with the old B
theorem test_sub_compares_loaded : after (before 0 100 250 false [(0, 0x3F), (15, 50)]) (fun t =>
    (t.a, t.b, t.carry) == (50, 50, false)) = true := by decide
-- VJ3: the wrapped increment is overwritten
theorem test_jmp : after (before 15 0 0 false [(15, 0x6F)]) (fun t =>
    (t.pc, t.mar, t.ir) == (15, 15, 0x6F)) = true := by decide
-- VK1: taken, the flag kept
theorem test_jc_taken : after (before 3 0 0 true [(3, 0x89)]) (fun t =>
    (t.pc, t.mar, t.carry) == (9, 3, true)) = true := by decide
-- VK3: not taken at the top, falls through to 0
theorem test_jc_not_taken : after (before 15 0 0 false [(15, 0x85)]) (fun t =>
    (t.pc, t.mar, t.carry) == (0, 15, false)) = true := by decide
-- VO2: operand ignored, a zero is output
theorem test_out : after (before 2 0 0 true [(2, 0x5A)]) (fun t =>
    (t.outLog, t.pc, t.carry) == ([0], 3, true)) = true := by decide
-- VH2: HLT in cell 15 reports 0
theorem test_hlt : after (before 15 0 0 false [(15, 0xF0)]) (fun t =>
    (t.phase, t.report, t.mar) == (.halted, some (.halt 0), 15)) = true := by decide
-- VU2: A, B and CARRY kept
theorem test_undefined9 : after (before 5 7 8 true [(5, 0x9F)]) (fun t =>
    t == { before 6 7 8 true [(5, 0x9F)] with mar := 5, ir := 0x9F, phase := .faulted }) = true := by decide
-- VU4 to VU8, VU3: the other five nibbles; the whole byte is carried
theorem test_undefined_others : ∀ b ∈ [0xA5, 0xB0, 0xC1, 0xDE, 0xEF, 0xE0],
    after (before 1 0 0 false [(1, (b : Byte).toNat)]) (fun t =>
      (t.phase, t.pc, t.mar, t.report) == (.faulted, 2, 1, some (.invalidInstruction b))) = true := by decide
-- VM4, VM5, VM7: floor-mod of both arguments
theorem test_setMemory_wraps : (setMemory 31 511 State.reset).cell 15 = 255 ∧
    (setMemory (-1) (-1) State.reset).cell 15 = 255 ∧ (setMemory 3 (-200) State.reset).cell 3 = 56 := by decide
-- VM8: the later write wins; VM2: writing 0 is not seen
theorem test_launch : (launch [(4, 1), (4, 2)]).mem = [(4, 2)] ∧ launch [(0, 0)] = State.reset := by decide
-- every table row runs as the first instruction after reset, here OUT
theorem test_withFetchWord : after (State.reset.withFetchWord 8 0x5F) (fun t => t.outLog == [0]) = true := by
  decide

-- R161, 'host must' and 'host is assumed never to': each forbidden turn, the rest of the turns being allowed
theorem test_contract_forbids :
    let rst : HostTurn := ⟨⟨true, false, 0, 0, false, false, false⟩, false⟩
    let load : HostTurn := ⟨⟨false, true, 0, 0, false, false, false⟩, false⟩
    let idle : HostTurn := ⟨⟨false, false, 0, 0, false, false, false⟩, false⟩
    let run : HostTurn := ⟨⟨false, false, 0, 0, true, false, false⟩, false⟩
    let both : HostTurn := ⟨⟨false, true, 0, 0, true, false, false⟩, false⟩
    hostKeepsContract [load] = false ∧ hostKeepsContract [run] = false ∧
    hostKeepsContract [rst, both] = false ∧ hostKeepsContract [rst, run, both] = false ∧
    hostKeepsContract [rst, run, idle] = false ∧
    hostKeepsContract [rst, { load with loadFailed := true }, run] = false ∧
    hostKeepsContract [rst, { load with loadFailed := true }, rst, load, run] = true := by decide
-- R28: in a terminal phase nothing changes until reset, not even under the load strobe
theorem test_port_frozen :
    let s : State := { State.reset with phase := .halted, ir := 0xF0 }
    portTick ⟨false, true, 3, 7, false, false, false⟩ s = s := by decide
-- R159: the name the Decode event carries
theorem test_opcodeName : opcodeName (decodeByte 0x4E) = .named .sta ∧
    opcodeName (decodeByte 0xE0) = .undefined 14 := by decide

/-! ### A witness for the hypotheses of each statement that has any, clause by clause -/

theorem witness_DecodeAndEncodeAgree : (0x8F#8).toNat / 16 ≠ 0 ∧ (0x8F#8).toNat / 16 ≠ 5 ∧
    (0x8F#8).toNat / 16 ≠ 15 ∧ (0x0F#8).toNat / 16 = 0 ∧ (0x5F#8).toNat / 16 = 5 ∧
    (0xFF#8).toNat / 16 = 15 := by decide
theorem witness_OpcodeNibbleSelectsTheInstruction : ∀ n : Fin 16,
    (BitVec.ofNat 8 (16 * n.val + 15)).toNat / 16 = n.val ∧ (BitVec.ofNat 8 (16 * n.val)).toNat / 16 = n.val := by
  decide
theorem witness_AssemblyLinesMeanTheirInstructions : (Mnemonic.jc, 8) ∈ [(Mnemonic.ldi, 7), (.jc, 8)] ∧
    15 < 16 ∧ (Mnemonic.hlt, 15) ∈ [(Mnemonic.nop, 0), (.hlt, 15)] ∧ 255 < 256 ∧ 16 ≤ 16 ∧ 256 ≤ 256 ∧
    Mnemonic.jc ∈ [Mnemonic.ldi, .jc] := by decide
theorem witness_MemWriteThenMemRead : (15 : Int) % 16 = -1 % 16 ∧ (0 : Int) % 16 ≠ 15 % 16 := by decide
theorem witness_CanonicalMemoriesReadingAlikeAreEqual : Memory.wf [(0, 1), (15, 255)] := by decide
/-- The reading clause of that statement, met by a memory and itself. -/
theorem witness_CanonicalMemories_alike :
    ∀ addr : Int, memRead [(0, 1), (15, 255)] addr = memRead [(0, 1), (15, 255)] addr := fun _ => rfl

/-- Changed by the store: cell 15 from 0 to 255. -/
def storing : State := before 0 255 0 false [(0, 0x4F)]
theorem witness_MemoryIsWrittenByStaAndImageLoadOnly_store : ∃ t, exec (.sta 15) storing = .next t ∧
    t.cell 15 ≠ storing.cell 15 := ⟨_, rfl, by decide⟩
theorem witness_MemoryIsWrittenByStaAndImageLoadOnly_load :
    (setMemory 31 255 State.reset).cell 15 ≠ State.reset.cell 15 := by decide
theorem witness_MemoryIsWrittenByStaAndImageLoadOnly_read :
    ∀ x, Instr.sta 15 ≠ .lda x ∧ Instr.sta 15 ≠ .add x ∧ Instr.sta 15 ≠ .sub x := by decide

theorem witness_FetchReadsTheByteAtPcAndIncrementsPc : (before 15 0 0 false []).phase = .fetch := by decide
theorem witness_DecodeWritesThePhaseOnly : (fetchPhase storing).phase = .decode ∧
    (fetchPhase storing).ir.toNat / 16 = 4 ∧
    (fetchPhase (before 0 0 0 false [(0, 0xEF)])).phase = .decode ∧
    (fetchPhase (before 0 0 0 false [(0, 0xEF)])).ir.toNat / 16 = 14 := by decide
theorem witness_ControllerTransitions : storing.phase = .fetch ∧ (fetchPhase storing).phase = .decode ∧
    (decodePhase (fetchPhase storing)).phase = .execute := by decide
theorem witness_ControllerTransitions_opcodes : (0x8F#8).toNat / 16 ≤ 8 ∧ 9 ≤ (0x90#8).toNat / 16 ∧
    (0xEF#8).toNat / 16 ≤ 14 ∧ (0xF0#8).toNat / 16 = 15 := by decide
theorem witness_PhaseTransitionsComposeToTheStep : storing.phase = .fetch ∧
    (fetchPhase storing).phase = .decode ∧ (decodePhase (fetchPhase storing)).phase = .execute := by decide
theorem witness_StepRunsTheDecodedInstruction : storing.phase = .fetch ∧
    decodeBytes (storing.cell storing.pc :: []) = .ok (.sta 15, []) := ⟨by decide, rfl⟩
/-- One witness in FETCH, where R96 defines the step, and one inside a pass (log entry 1). -/
theorem witness_StepIsTotalOutsideTheTerminalPhases : storing.phase ≠ .halted ∧ storing.phase ≠ .faulted ∧
    (fetchPhase storing).phase ≠ .halted ∧ (fetchPhase storing).phase ≠ .faulted := by decide

/-- A machine that has halted, and one that has faulted: the states VH1 and VU2 leave, less what they do not
name. -/
def halted : State := { before 4 42 0 false [(3, 0xF0)] with mar := 3, ir := 0xF0, phase := .halted }
def faulted : State := { before 6 7 8 true [(5, 0x9F)] with mar := 5, ir := 0x9F, phase := .faulted }
def turn : PortIn := ⟨false, false, 15, 255, true, false, false⟩
theorem witness_TerminalPhasesAreAbsorbing : halted.phase = .halted ∧ faulted.phase = .faulted ∧
    turn.rst = false := by decide
theorem witness_BoundaryInvariantIsKept : BoundaryInv storing ∧ ∃ t, step storing = .next t :=
  ⟨by decide, _, rfl⟩
theorem witness_BoundaryInv_terminal : BoundaryInv halted ∧ BoundaryInv faulted := by decide
theorem witness_FetchedByteDecidesHowTheStepEnds : storing.phase = .fetch ∧ ∃ t, step storing = .next t :=
  ⟨by decide, _, rfl⟩
theorem witness_SequentialFlowUnlessAJumpIsTaken :
    (before 15 0 0 false [(15, 0x85)]).phase = .fetch ∧ ¬ AboutToRun 6 (before 15 0 0 false [(15, 0x85)]) ∧
    ¬ (AboutToRun 8 (before 15 0 0 false [(15, 0x85)]) ∧ (before 15 0 0 false [(15, 0x85)]).carry = true) := by
  decide
theorem witness_LdiLoadsTheZeroExtendedNibble : AboutToRun 7 (before 15 0xFF 0 true [(15, 0x7F)]) := by decide
theorem witness_AddLosesNothing : ∃ t t', exec (.add 15) (before 0 7 0 false [(15, 9)]) = .next t ∧
    exec (.add 15) (before 0 9 0 false [(15, 7)]) = .next t' ∧
    (before 0 9 0 false [(15, 7)]).a = (before 0 7 0 false [(15, 9)]).cell 15 ∧
    (before 0 9 0 false [(15, 7)]).cell 15 = (before 0 7 0 false [(15, 9)]).a :=
  ⟨_, _, rfl, rfl, by decide, by decide⟩
theorem witness_SubLosesNothingAndUndoesAdd : ∃ t u v, exec (.sub 15) storing = .next v ∧
    exec (.add 15) storing = .next t ∧ exec (.sub 15) t = .next u := ⟨_, _, _, rfl, rfl, rfl⟩
theorem witness_JmpSetsPcToTheOperand : AboutToRun 6 (before 15 0 0 false [(15, 0x6F)]) := by decide
theorem witness_JcJumpsExactlyWhenCarryIsSet : AboutToRun 8 (before 15 0 0 true [(15, 0x85)]) ∧
    (before 15 0 0 true [(15, 0x85)]).carry = true ∧ AboutToRun 8 (before 15 0 0 false [(15, 0x85)]) ∧
    (before 15 0 0 false [(15, 0x85)]).carry = false := by decide
theorem witness_JumpToItselfRepeatsForEver : (before 15 0 0 false [(15, 0x6F)]).phase = .fetch ∧
    decodeByte ((before 15 0 0 false [(15, 0x6F)]).cell 15) = .jmp 15 := by decide
theorem witness_NopChangesWhatFetchChanges : AboutToRun 0 (before 15 0 0 false [(15, 0x0F)]) := by decide
theorem witness_OutAppendsTheAccumulator : AboutToRun 5 (before 15 0 0 false [(15, 0x5F)]) := by decide
theorem witness_HltHaltsAndReportsTheIncrementedPc : AboutToRun 15 (before 15 0 0 false [(15, 0xFF)]) := by
  decide
theorem witness_UndefinedOpcodesFaultAndReportTheByte : AboutToRun 9 (before 0 0 0 false [(0, 0x90)]) ∧
    AboutToRun 14 (before 15 0 0 false [(15, 0xEF)]) := by decide
theorem witness_AccumulatorWritersAndReaders_write : ∃ t, exec (.ldi 15) State.reset = .next t ∧
    t.a ≠ State.reset.a := ⟨_, rfl, by decide⟩
theorem witness_AccumulatorWritersAndReaders_read : Instr.jc 15 ≠ .out ∧ ∀ x, Instr.jc 15 ≠ .add x ∧
    Instr.jc 15 ≠ .sub x ∧ Instr.jc 15 ≠ .sta x ∧ Instr.jc 15 ≠ .lda x ∧ Instr.jc 15 ≠ .ldi x := by decide
theorem witness_ScratchRegisterIsNeverAnInput : (∃ t, exec (.add 0) storing = .next t ∧ t.b ≠ storing.b) ∧
    ∀ x, Instr.jc 15 ≠ .add x ∧ Instr.jc 15 ≠ .sub x := ⟨⟨_, rfl, by decide⟩, by decide⟩
theorem witness_CarryIsReadByJcOnly : (∃ t, exec (.add 0) storing = .next t ∧ t.carry ≠ storing.carry) ∧
    ∀ x, Instr.out ≠ .add x ∧ Instr.out ≠ .sub x ∧ Instr.out ≠ .jc x := ⟨⟨_, rfl, by decide⟩, by decide⟩
theorem witness_OnlyJumpsWritePcInExecute :
    ∃ t, exec (.jc 15) (before 0 0 0 true []) = .next t ∧ t.pc ≠ (before 0 0 0 true []).pc :=
  ⟨_, rfl, by decide⟩
theorem witness_ExecuteKeepsIrMarAndOutputHistory : (∃ t, exec (.sta 15) storing = .next t ∧
    t.mar ≠ storing.mar) ∧ ∃ t, exec .out storing = .next t ∧ t.outLog ≠ storing.outLog :=
  ⟨⟨_, rfl, by decide⟩, _, rfl, by decide⟩
theorem witness_MarIsTheLastAccessAddress : storing.phase = .fetch ∧ (∃ t, step storing = .next t) ∧
    1 ≤ (storing.cell storing.pc).toNat / 16 ∧ (storing.cell storing.pc).toNat / 16 ≤ 4 ∧
    ¬ (1 ≤ (State.reset.cell 0).toNat / 16) := ⟨by decide, ⟨_, rfl⟩, by decide⟩
theorem witness_StoreIsSeenByTheNextFetch : (before 15 0x99 0 false [(15, 0x40)]).phase = .fetch ∧
    decodeByte ((before 15 0x99 0 false [(15, 0x40)]).cell 15) = .sta 0 ∧ (0 : Nibble) = 15 + 1 := by decide
theorem witness_CarryIsSeenByTheNextJc : decodeByte ((before 15 1 0 false [(15, 0x21), (0, 0x85)]).cell 15) =
    .add 1 ∧ decodeByte ((before 15 1 0 false [(15, 0x21), (0, 0x85)]).cell (15 + 1)) = .jc 5 ∧
    decodeByte ((before 15 1 0 false [(15, 0x31), (0, 0x85)]).cell 15) = .sub 1 := by decide
theorem witness_SetMemoryThenSnapshotRoundTrips : 15 < 16 ∧ ((15 : Nat) : Int) = -1 % 16 ∧
    ((14 : Nat) : Int) ≠ -1 % 16 := by decide
theorem witness_RunDependsOnTheImageAlone :
    SameCells (launch [(4, 1), (4, 2), (5, 0)]) (launch [(20, 258)]) := by decide
theorem witness_RunEndsWithTheReportOfItsLastState : State.reset.phase = .fetch ∧
    (runLoop 1 State.reset).2 = none ∧ (runLoop 1 (launch [(0, 0xF0)])).2 = some (.halt 1) ∧
    (runLoop 1 (launch [(0, 0x90)])).2 = some (.invalidInstruction 0x90) := by decide
theorem witness_PauseOnlyDelays : ∃ t, Host.Core.run core ([false, true].count true) State.reset = .next t ∧
    t.phase = .fetch ∧ State.reset.phase = .fetch := ⟨_, rfl, by decide, by decide⟩
theorem witness_PauseOnlyDelays_end : (∃ t, Host.Core.run core ([false].count true + 1) (launch [(0, 0xF0)]) =
    .next t ∧ t.phase = .halted) ∧ (∃ t, Host.Core.run core ([false].count true + 1) (launch [(0, 0x90)]) =
    .next t ∧ t.phase = .faulted) ∧ (launch [(0, 0xF0)]).phase = .fetch ∧ (launch [(0, 0x90)]).phase = .fetch :=
  ⟨⟨_, rfl, by decide⟩, ⟨_, rfl, by decide⟩, by decide, by decide⟩
theorem witness_TraceEventsOfAStep : State.reset.phase = .fetch ∧ (∃ t, step State.reset = .next t) ∧
    ∃ t, phaseStep State.reset = .next t := ⟨by decide, ⟨_, rfl⟩, _, rfl⟩
theorem witness_TraceEventsOfAStep_names : (0xFF#8).toNat / 16 = 15 ∧ (0x90#8).toNat / 16 = 9 ∧
    (0xEF#8).toNat / 16 = 14 := by decide
theorem witness_PortsDriveTheEngine : turn.rst = false ∧ turn.run = true ∧ turn.pause = false ∧
    { turn with rst := true }.rst = true ∧ { turn with run := false, ldEn := true }.ldEn = true ∧
    { turn with run := false }.run = false ∧ { turn with run := false }.ldEn = false ∧
    { turn with pause := true }.ack = false ∧ { turn with pause := true, ack := true }.ack = true ∧
    State.reset.phase = .fetch ∧ halted.phase = .halted ∧ faulted.phase = .faulted := by decide
def resetTurn : PortIn := { turn with rst := true, run := false }
def loadTurn : PortIn := { turn with run := false, ldEn := true }
theorem witness_PortTurnsAreTheLaunchedRun : resetTurn.rst = true ∧
    (∀ p ∈ [loadTurn], p.rst = false ∧ p.run = false ∧ p.ldEn = true) ∧
    (∀ p ∈ [{ turn with pause := true }, turn], p.rst = false ∧ p.run = true ∧ p.ldEn = false) := by decide
/-- A reset is taken in any turn, also after a run whose `run` was up (R161), so the turn after it may lower it. -/
theorem witness_HostContractTurnByTurn : hostKeepsContract [⟨resetTurn, false⟩, ⟨loadTurn, false⟩, ⟨turn, false⟩,
    ⟨{ turn with rst := true }, false⟩, ⟨loadTurn, false⟩] = true := by decide
theorem witness_AcknowledgedRunReachesEveryState :
    (∀ n, ((fun _ => turn : Nat → PortIn) n).rst = false ∧ ((fun _ => turn : Nat → PortIn) n).run = true) ∧
    HostAcknowledges (fun _ => turn) ∧ State.reset.phase = .fetch ∧
    ∃ t, Host.Core.run core 1 State.reset = .next t :=
  ⟨fun _ => ⟨rfl, rfl⟩, fun n => ⟨n, Nat.le_refl n, .inl rfl⟩, by decide, _, rfl⟩
theorem witness_PlacedWordIsRunNext : decodeTableWord 8 0xFF = some .hlt ∧
    decodeTableWord 8 0x100 = some .nop := by decide

end Sys2Proof.Tests
end

section
/-! Who writes and who reads memory and the accumulator, what the terminal phases freeze, and the state after
reset (10_state.md). The EXECUTE phase is written as a function, so that a claim about every instruction is one
case split on the instruction. -/

namespace Sys2Proof.Machine

/-! ### The EXECUTE phase as a function -/

/-- The state an instruction's EXECUTE phase leaves (R93, R94). That `exec` answers it for every instruction is
`exec_eq_next`. -/
def execEffect : Instr → State → State
  | .nop, s => s.setPhase .fetch
  | .lda x, s => ((s.setMar x).setA (s.cell x)).setPhase .fetch
  | .add x, s =>
    ((((s.setMar x).setB (s.cell x)).setA (narrow (exactSum s.a (s.cell x)))).setCarry
      (carryOfSum (exactSum s.a (s.cell x)))).setPhase .fetch
  | .sub x, s =>
    ((((s.setMar x).setB (s.cell x)).setA (narrow (exactDiff s.a (s.cell x)))).setCarry
      (carryOfDiff (exactDiff s.a (s.cell x)))).setPhase .fetch
  | .sta x, s => ((s.setMar x).storeCell x s.a).setPhase .fetch
  | .out, s => (s.setOutLog (s.outLog ++ [s.a])).setPhase .fetch
  | .jmp x, s => (s.setPc x).setPhase .fetch
  | .ldi x, s => (s.setA (immediate x)).setPhase .fetch
  | .jc x, s => (s.setPc (if s.carry then x else s.pc)).setPhase .fetch
  | .hlt, s => s.setPhase .halted
  | .undefined9 _, s | .undefined10 _, s | .undefined11 _, s | .undefined12 _, s | .undefined13 _, s
  | .undefined14 _, s => s.setPhase .faulted

/-- EXECUTE always gives a next state: no instruction faults or is refused. -/
theorem exec_eq_next (i : Instr) (s : State) : exec i s = .next (execEffect i s) := by
  cases i with
  | jc x => exact exec_jc x s
  | _ => rfl

theorem eq_execEffect_of_exec {i : Instr} {s t : State} (h : exec i s = .next t) : t = execEffect i s :=
  next_inj (h.symm.trans (exec_eq_next i s))

/-! ### Memory (R27, R51, R52) -/

theorem cellIndex_eq_iff (addr : Int) (k : Nat) : cellIndex addr = k ↔ (k : Int) = addr % 16 := by
  simp only [cellIndex, Config.memCells]; omega

@[simp] theorem cellIndex_emod (addr : Int) : cellIndex (addr % 16) = cellIndex addr := by
  simp only [cellIndex, Config.memCells]; omega

@[simp] theorem State.cell_reset (c : Nibble) : State.reset.cell c = 0 := rfl

@[simp] theorem State.cell_fetchPhase (s : State) (c : Nibble) : (fetchPhase s).cell c = s.cell c := by
  simp [fetchPhase_eq]

@[simp] theorem State.cell_decodePhase (s : State) (c : Nibble) : (decodePhase s).cell c = s.cell c := rfl

/-- Reading a cell after the host wrote one (R152). -/
theorem State.cell_setMemory (addr v : Int) (s : State) (c : Nibble) :
    (setMemory addr v s).cell c = if (c.toNat : Int) = addr % 16 then BitVec.ofInt 8 v else s.cell c := by
  simp only [State.cell, setMemory, State.setMem_mem, memRead, memWrite, memLookup_memStore, cellIndex_nibble,
    eq_comm (a := c.toNat), cellIndex_eq_iff]

theorem cell_execEffect_sta (x : Nibble) (s : State) (c : Nibble) :
    (execEffect (.sta x) s).cell c = if c = x then s.a else s.cell c := by
  simp [execEffect, State.cell_storeCell]

/-- The only cell EXECUTE can change is the one STA names, and it takes `A`. -/
theorem eq_sta_of_cell_execEffect_ne {i : Instr} {s : State} {c : Nibble}
    (h : (execEffect i s).cell c ≠ s.cell c) : i = .sta c ∧ (execEffect i s).cell c = s.a := by
  cases i with
  | sta x =>
    rw [cell_execEffect_sta] at h ⊢
    by_cases hc : c = x
    · simp [hc]
    · simp [hc] at h
  | _ => exact absurd rfl h

/-- What an instruction that does not read memory does outside memory is the same whatever memory holds. -/
theorem execEffect_setMem_of_not_reader {i : Instr} (s : State) (m : Memory)
    (hi : ∀ x, i ≠ .lda x ∧ i ≠ .add x ∧ i ≠ .sub x) :
    (execEffect i (s.setMem m)).setMem [] = (execEffect i s).setMem [] := by
  cases i with
  | lda x => exact absurd rfl (hi x).1
  | add x => exact absurd rfl (hi x).2.1
  | sub x => exact absurd rfl (hi x).2.2
  | _ => rfl

/-- Settles O8: STA is the one case of EXECUTE that writes memory, `cell_setMemory` says what the host writes,
and the cell number is taken mod 16 by `cellIndex` alone. -/
theorem memoryIsWrittenByStaAndImageLoadOnly : Obligations.MemoryIsWrittenByStaAndImageLoadOnly := by
  refine ⟨fun i s t c h hne => ?_, fun s c => ⟨s.cell_fetchPhase c, s.cell_decodePhase c⟩,
    fun addr v s c hne => ?_, fun i s m hi => ?_, fun m addr v => ?_, State.cell_reset⟩
  · obtain rfl := eq_execEffect_of_exec h
    exact eq_sta_of_cell_execEffect_ne hne
  · rw [State.cell_setMemory] at hne
    exact by_contra fun hc => hne (if_neg hc)
  · exact ⟨_, _, exec_eq_next i s, exec_eq_next i _, execEffect_setMem_of_not_reader s m hi⟩
  · simp [memRead, memWrite]

/-! ### The accumulator (R21) -/

theorem writer_of_execEffect_a_ne {i : Instr} {s : State} (h : (execEffect i s).a ≠ s.a) :
    ∃ x, i = .lda x ∨ i = .ldi x ∨ i = .add x ∨ i = .sub x := by
  cases i with
  | lda x => exact ⟨x, .inl rfl⟩
  | ldi x => exact ⟨x, .inr (.inl rfl)⟩
  | add x => exact ⟨x, .inr (.inr (.inl rfl))⟩
  | sub x => exact ⟨x, .inr (.inr (.inr rfl))⟩
  | _ => exact absurd rfl h

/-- An instruction that neither reads nor writes `A` commutes with putting another value there. -/
theorem execEffect_setA_of_not_user {i : Instr} (s : State) (v : Byte) (hout : i ≠ .out)
    (hi : ∀ x, i ≠ .add x ∧ i ≠ .sub x ∧ i ≠ .sta x ∧ i ≠ .lda x ∧ i ≠ .ldi x) :
    execEffect i (s.setA v) = (execEffect i s).setA v := by
  cases i with
  | out => exact absurd rfl hout
  | add x => exact absurd rfl (hi x).1
  | sub x => exact absurd rfl (hi x).2.1
  | sta x => exact absurd rfl (hi x).2.2.1
  | lda x => exact absurd rfl (hi x).2.2.2.1
  | ldi x => exact absurd rfl (hi x).2.2.2.2
  | _ => rfl

theorem fetchPhase_setA (s : State) (v : Byte) : fetchPhase (s.setA v) = (fetchPhase s).setA v := by
  simp only [fetchPhase_eq]; rfl

theorem decodePhase_setA (s : State) (v : Byte) : decodePhase (s.setA v) = (decodePhase s).setA v := rfl

/-- Settles O34: a case split on the instruction for the writers and for the readers; LDA and LDI overwrite `A`. -/
theorem accumulatorWritersAndReaders : Obligations.AccumulatorWritersAndReaders := by
  refine ⟨fun i s t h hne => ?_, fun x s v => ⟨rfl, rfl⟩, fun i s v hout hi => ?_,
    fun s v => ⟨fetchPhase_setA s v, decodePhase_setA s v⟩, State.reset_a⟩
  · obtain rfl := eq_execEffect_of_exec h
    exact writer_of_execEffect_a_ne hne
  · refine ⟨_, exec_eq_next i s, ?_, by_contra fun hne => ?_⟩
    · rw [exec_eq_next, execEffect_setA_of_not_user s v hout hi]
    · obtain ⟨x, hx⟩ := writer_of_execEffect_a_ne hne
      obtain ⟨hadd, hsub, -, hlda, hldi⟩ := hi x
      simp [hadd, hsub, hlda, hldi] at hx

/-! ### The terminal phases (R28, R99) -/

theorem step_of_halted {s : State} (h : s.phase = .halted) : step s = .fault .noStepFromHalted := by
  simp only [step, instructionStep, h]

theorem step_of_faulted {s : State} (h : s.phase = .faulted) : step s = .fault .noStepFromFaulted := by
  simp only [step, instructionStep, h]

theorem traceStep_of_terminal {s : State} (h : s.phase = .halted ∨ s.phase = .faulted) : traceStep s = [] := by
  rcases h with h | h <;> simp only [traceStep, h]

/-- A terminal state is held at the ports until reset. -/
theorem portTick_of_terminal {p : PortIn} {s : State} (h : s.phase = .halted ∨ s.phase = .faulted)
    (hr : p.rst = false) : portTick p s = s := by
  simp [portTick, h, hr]

/-- A turn that leaves the state as it was outputs nothing. -/
theorem portEmitted_of_portTick_eq {p : PortIn} {s : State} (h : portTick p s = s) : portEmitted p s = none := by
  simp [portEmitted, h]

/-- Settles O15, from what each function answers in the terminal phases. -/
theorem terminalPhasesAreAbsorbing : Obligations.TerminalPhasesAreAbsorbing := by
  refine ⟨fun s h => ⟨step_of_halted h, traceStep_of_terminal (.inl h)⟩,
    fun s h => ⟨step_of_faulted h, traceStep_of_terminal (.inr h)⟩, fun s p h hr => ?_⟩
  have held : portTick p s = s := portTick_of_terminal h hr
  exact ⟨held, portEmitted_of_portTick_eq held⟩

/-! ### Reset (R32) -/

/-- Settles O42: the reset value of each element. -/
theorem resetZeroesEverything : Obligations.ResetZeroesEverything :=
  ⟨State.reset_a, State.reset_b, State.reset_pc, State.reset_mar, State.reset_ir, State.reset_carry,
    State.cell_reset, State.reset_phase, State.reset_outLog⟩

end Sys2Proof.Machine
end

section
/-! The one instruction format (R71), and what an assembly line puts into memory or why it is
refused (R78). -/

namespace Sys2Proof

/-! ### The format -/

/-- The encoded byte as a number (R71). -/
theorem toNat_encode (i : Instr) : (encode i).toNat = i.opcode.toNat * 16 + i.operandField.toNat :=
  toNat_joinFields i.opcode i.operandField

/-- A byte as a number is its two fields joined. -/
theorem toNat_eq_fields (b : Byte) : b.toNat = (opcodeOf b).toNat * 16 + (operandOf b).toNat := by
  rw [← toNat_joinFields, joinFields_fields]

/-- Settles O2: both halves say that joining two nibbles and taking a byte's fields are inverse. -/
theorem oneFormatOpcodeHighOperandLow : Obligations.OneFormatOpcodeHighOperandLow :=
  ⟨toNat_encode, fun b => ⟨toNat_opcodeOf b, toNat_operandOf b, toNat_eq_fields b⟩⟩

/-! ### Which lines are well formed -/

theorem Line.wellFormed_eq_false_of_addr {addr : Nat} (st : Stmt) (h : 16 ≤ addr) :
    Line.wellFormed ⟨addr, st⟩ = false := by
  have : ¬ addr < Config.memCells := not_lt.mpr h
  simp [Line.wellFormed, this]

theorem Line.wellFormed_eq_false_of_stmt (addr : Nat) {st : Stmt} (h : st.wellFormed = false) :
    Line.wellFormed ⟨addr, st⟩ = false := by
  simp [Line.wellFormed, h]

theorem Line.wellFormed_of_addr_of_stmt {addr : Nat} {st : Stmt} (ha : addr < 16) (h : st.wellFormed = true) :
    Line.wellFormed ⟨addr, st⟩ = true := by
  have : addr < Config.memCells := ha
  simp [Line.wellFormed, h, this]

end Sys2Proof

namespace Sys2Proof.Machine

/-! ### The byte of a statement -/

/-- A mnemonic with an operand encodes that operand, whatever the mnemonic's row. -/
theorem operandField_mnemonicInstr {m : Mnemonic} (x : Nibble) (h : m.takesOperand = true) :
    (mnemonicInstr m x).operandField = x := by
  cases m with
  | nop | out | hlt => cases h
  | _ => rfl

theorem operandField_mnemonicInstr_zero (m : Mnemonic) : (mnemonicInstr m 0).operandField = 0 := by
  cases m <;> rfl

/-- The opcode is the mnemonic's alone. -/
theorem opcode_mnemonicInstr (m : Mnemonic) (x : Nibble) :
    (mnemonicInstr m x).opcode = (mnemonicInstr m 0).opcode := by
  cases m <;> rfl

theorem toNat_stmtByte_withOperand {m : Mnemonic} {op n : Nat} (hm : m.takesOperand = true)
    (hop : (mnemonicInstr m 0).opcode.toNat = op) (hn : n < 16) :
    (stmtByte (.withOperand m n)).toNat = op * 16 + n := by
  rw [stmtByte, toNat_encode, operandField_mnemonicInstr _ hm, opcode_mnemonicInstr, hop,
    BitVec.toNat_ofNat, Nat.mod_eq_of_lt hn]

theorem toNat_stmtByte_plain {m : Mnemonic} {op : Nat} (hop : (mnemonicInstr m 0).opcode.toNat = op) :
    (stmtByte (.plain m)).toNat = op * 16 := by
  rw [stmtByte, toNat_encode, operandField_mnemonicInstr_zero, hop]; rfl

theorem toNat_stmtByte_byte {v : Nat} (hv : v < 256) : (stmtByte (.byte v)).toNat = v :=
  (BitVec.toNat_ofNat v 8).trans (Nat.mod_eq_of_lt hv)

/-- The rows of R73 whose mnemonic takes an operand, with their opcodes (D20). -/
theorem opcode_of_operand_row : ∀ p ∈ [(Mnemonic.lda, 1), (.add, 2), (.sub, 3), (.sta, 4), (.jmp, 6),
    (.ldi, 7), (.jc, 8)], p.1.takesOperand = true ∧ (mnemonicInstr p.1 0).opcode.toNat = p.2 := by decide

/-- The rows of R73 whose mnemonic stands alone, with their opcodes (D20). -/
theorem opcode_of_plain_row : ∀ p ∈ [(Mnemonic.nop, 0), (.out, 5), (.hlt, 15)],
    p.1.takesOperand = false ∧ (mnemonicInstr p.1 0).opcode.toNat = p.2 := by decide

/-! ### The image of one line, and of two lists of lines -/

theorem assemble_of_wellFormed {l : Line} (h : l.wellFormed = true) :
    assemble [l] = some [((l.addr : Int), ((stmtByte l.stmt).toNat : Int))] := by
  simp [assemble, h]

theorem assemble_of_not_wellFormed {l : Line} (h : l.wellFormed = false) : assemble [l] = none := by
  simp [assemble, h]

/-- What a machine launched with one byte placed holds: that byte in its cell, and 0 in every other. -/
theorem cell_launch_singleton (x c : Nibble) (v : Byte) :
    (launch [((x.toNat : Int), (v.toNat : Int))]).cell c = if c = x then v else 0 :=
  State.cell_storeCell State.reset x c v

/-- A statement in range stands in its line's cell, and every other cell is 0. -/
theorem line_in_range {addr n : Nat} {st : Stmt} (ha : addr < 16) (hs : st.wellFormed = true)
    (hb : (stmtByte st).toNat = n) :
    ∃ img, assemble [⟨addr, st⟩] = some img ∧ ((launch img).cell (BitVec.ofNat 4 addr)).toNat = n ∧
      ∀ c : Nibble, c ≠ BitVec.ofNat 4 addr → (launch img).cell c = 0 := by
  have haddr : (BitVec.ofNat 4 addr).toNat = addr := (BitVec.toNat_ofNat addr 4).trans (Nat.mod_eq_of_lt ha)
  have hcell := fun c => cell_launch_singleton (BitVec.ofNat 4 addr) c (stmtByte st)
  rw [haddr] at hcell
  refine ⟨_, assemble_of_wellFormed (Line.wellFormed_of_addr_of_stmt ha hs), ?_, fun c hc => ?_⟩
  · rw [hcell, if_pos rfl, hb]
  · rw [hcell, if_neg hc]

/-- An ill-formed statement is refused at every address. -/
theorem assemble_of_ill_formed_stmt (addr : Nat) {st : Stmt} (h : st.wellFormed = false) :
    assemble [⟨addr, st⟩] = none :=
  assemble_of_not_wellFormed (Line.wellFormed_eq_false_of_stmt addr h)

/-- Lines follow one another in the image, and one ill-formed line refuses the whole list. -/
theorem assemble_append (ls ls' : List Line) : assemble (ls ++ ls') =
    (assemble ls).bind fun img => (assemble ls').map fun img' => img ++ img' := by
  unfold assemble
  rw [List.all_append, List.map_append]
  cases ls.all Line.wellFormed <;> cases ls'.all Line.wellFormed <;> rfl

/-- Settles O5: a line in range by `line_in_range` and the byte of its statement, a line out of range because
its address or its statement is ill formed. -/
theorem assemblyLinesMeanTheirInstructions : Obligations.AssemblyLinesMeanTheirInstructions := by
  refine ⟨fun m op n addr hrow hn ha => ?_, fun m op addr hrow ha => ?_, fun v addr hv ha => ?_,
    fun addr st ha => ?_, fun addr n m hn => ?_, fun addr v hv => ?_, fun addr n m hm => ?_,
    fun addr m hm => ?_, assemble_append⟩
  · obtain ⟨htakes, hop⟩ := opcode_of_operand_row _ hrow
    exact line_in_range ha (by simp [Stmt.wellFormed, htakes, hn]) (toNat_stmtByte_withOperand htakes hop hn)
  · obtain ⟨htakes, hop⟩ := opcode_of_plain_row _ hrow
    exact line_in_range ha (by simp [Stmt.wellFormed, htakes]) (toNat_stmtByte_plain hop)
  · exact line_in_range ha (by simp [Stmt.wellFormed, hv]) (toNat_stmtByte_byte hv)
  · exact assemble_of_not_wellFormed (Line.wellFormed_eq_false_of_addr st ha)
  · exact assemble_of_ill_formed_stmt addr (by simp [Stmt.wellFormed, hn])
  · exact assemble_of_ill_formed_stmt addr (by simp [Stmt.wellFormed, hv])
  · have htakes : m.takesOperand = false := by rcases hm with rfl | rfl | rfl <;> rfl
    exact assemble_of_ill_formed_stmt addr (by simp [Stmt.wellFormed, htakes])
  · have htakes : m.takesOperand = true := by revert m; decide
    exact assemble_of_ill_formed_stmt addr (by simp [Stmt.wellFormed, htakes])

end Sys2Proof.Machine
end

section
/-! The cycle controller (40_cycle.md): its phases one by one, the step that they compose to, and what the host
sees of a step: the trace events, the turns in pause mode, the ports. -/

namespace Sys2Proof

/-! ### The opcode nibble and the decoded instruction (R73) -/

/-- The decoder selects the row whose opcode is the high nibble, whatever the operand. -/
theorem opcode_opcodeMap : ∀ (n : Fin 16) (x : Nibble), (opcodeMap[n] x).opcode.toNat = n := by decide

theorem toNat_opcode_decodeByte (b : Byte) : (decodeByte b).opcode.toNat = b.toNat / 16 :=
  (opcode_opcodeMap (opcodeOf b).toFin (operandOf b)).trans (toNat_opcodeOf b)

theorem eq_out_iff_opcode (i : Instr) : i = .out ↔ i.opcode.toNat = 5 := by
  cases i <;> simp [Instr.opcode]

theorem decodeByte_eq_out_iff (b : Byte) : decodeByte b = .out ↔ b.toNat / 16 = 5 := by
  rw [eq_out_iff_opcode, toNat_opcode_decodeByte]

end Sys2Proof

namespace Sys2Proof.Machine

/-! ### The names of the opcodes (R73, R159) -/

/-- The ten rows of R73 that have a mnemonic. -/
def mnemonicRows : List (Nat × Mnemonic) :=
  [(0, .nop), (1, .lda), (2, .add), (3, .sub), (4, .sta), (5, .out), (6, .jmp), (7, .ldi), (8, .jc), (15, .hlt)]

theorem opcodeName_of_row {i : Instr} {m : Mnemonic} (h : (i.opcode.toNat, m) ∈ mnemonicRows) :
    opcodeName i = .named m := by
  cases i with
  | undefined9 | undefined10 | undefined11 | undefined12 | undefined13 | undefined14 =>
    simp [Instr.opcode, mnemonicRows] at h
  | _ => simpa [Instr.opcode, mnemonicRows, opcodeName, eq_comm] using h

theorem opcodeName_of_undefined {i : Instr} (h9 : 9 ≤ i.opcode.toNat) (h14 : i.opcode.toNat ≤ 14) :
    opcodeName i = .undefined i.opcode := by
  cases i with
  | undefined9 | undefined10 | undefined11 | undefined12 | undefined13 | undefined14 => rfl
  | hlt => exact absurd h14 (by decide)
  | _ => exact absurd h9 (by simp [Instr.opcode])

theorem opcodeName_decodeByte_of_row {b : Byte} {m : Mnemonic} (h : (b.toNat / 16, m) ∈ mnemonicRows) :
    opcodeName (decodeByte b) = .named m :=
  opcodeName_of_row (by rwa [toNat_opcode_decodeByte])

theorem opcodeName_decodeByte_of_undefined {b : Byte} (h9 : 9 ≤ b.toNat / 16) (h14 : b.toNat / 16 ≤ 14) :
    opcodeName (decodeByte b) = .undefined (opcodeOf b) := by
  have hop : (decodeByte b).opcode.toNat = b.toNat / 16 := toNat_opcode_decodeByte b
  rw [opcodeName_of_undefined (hop ▸ h9) (hop ▸ h14)]
  exact congrArg _ (BitVec.eq_of_toNat_eq (hop.trans (toNat_opcodeOf b).symm))

/-! ### The five phases (R90 to R94) -/

/-- EXECUTE ends in the phase the model's own table gives the opcode (R94). -/
theorem phase_execEffect (i : Instr) (s : State) : (execEffect i s).phase = nextPhase i.opcode := by
  cases i <;> rfl

theorem nextPhase_of_le_eight {op : Nibble} (h : op.toNat ≤ 8) : nextPhase op = .fetch := by
  rw [nextPhase, if_neg (by omega), if_neg (by omega)]

theorem nextPhase_of_undefined {op : Nibble} (h9 : 9 ≤ op.toNat) (h14 : op.toNat ≤ 14) :
    nextPhase op = .faulted := by
  rw [nextPhase, if_neg (by omega), if_pos ⟨h9, h14⟩]

theorem nextPhase_of_fifteen {op : Nibble} (h : op.toNat = 15) : nextPhase op = .halted := by
  rw [nextPhase, if_pos h]

theorem phaseStep_terminal_ne_next {s t : State} (h : s.phase = .halted ∨ s.phase = .faulted) :
    phaseStep s ≠ .next t := by
  rcases h with h | h <;> simp [phaseStep, h]

/-- Settles O11: FETCH and DECODE write their successor, and EXECUTE ends as `nextPhase` says of the opcode. -/
theorem controllerTransitions : Obligations.ControllerTransitions := by
  refine ⟨State.reset_phase, fun s h => ⟨_, phaseStep_of_fetch s h, rfl⟩,
    fun s h => ⟨_, phaseStep_of_decode s h, rfl⟩, fun s h => ?_, fun s t => phaseStep_terminal_ne_next⟩
  have hexec : phaseStep s = .next (execEffect (decodeByte s.ir) s) :=
    (phaseStep_of_execute s h).trans (exec_eq_next _ s)
  refine ⟨_, hexec, ?_⟩
  rw [phase_execEffect, ← toNat_opcode_decodeByte]
  exact ⟨nextPhase_of_le_eight, nextPhase_of_undefined, nextPhase_of_fifteen⟩

/-- Settles O9, from FETCH as a sequence of writes. -/
theorem fetchReadsTheByteAtPcAndIncrementsPc : Obligations.FetchReadsTheByteAtPcAndIncrementsPc := by
  intro s h
  refine ⟨_, phaseStep_of_fetch s h, ?_⟩
  rw [fetchPhase_eq]
  exact ⟨rfl, rfl, rfl, BitVec.toNat_add s.pc 1, rfl, rfl, rfl, rfl, fun _ => rfl⟩

/-! ### The trace of each phase (R102, R159) -/

theorem tracePhase_of_fetch {s : State} (h : s.phase = .fetch) :
    tracePhase s = [.fetch (s.pc + 1) s.pc (s.cell s.pc)] := by
  simp only [tracePhase, h, fetchPhase_eq]; rfl

theorem tracePhase_of_decode {s : State} (h : s.phase = .decode) :
    tracePhase s = [.decode (opcodeName (decodeByte s.ir))] := by
  simp only [tracePhase, h]

theorem tracePhase_of_execute {s : State} (h : s.phase = .execute) : tracePhase s =
    outputEvents (decodeByte s.ir) s ++ [.execute (execEffect (decodeByte s.ir) s).snapshot] := by
  simp only [tracePhase, h, executePhase, exec_eq_next]

/-- Settles O10: DECODE is one write, and its event names the opcode of the byte in IR. -/
theorem decodeWritesThePhaseOnly : Obligations.DecodeWritesThePhaseOnly := by
  intro s h
  refine ⟨phaseStep_of_decode s h, toNat_opcodeOf s.ir, toNat_operandOf s.ir, fun n m hrow hn => ?_,
    fun h9 h14 => ?_⟩
  · subst hn
    rw [tracePhase_of_decode h, opcodeName_decodeByte_of_row hrow]
  · rw [tracePhase_of_decode h, opcodeName_decodeByte_of_undefined h9 h14]; rfl

/-! ### The step from FETCH (R96) -/

/-- The state in which a step from FETCH executes: the byte is in IR, and PC is incremented. -/
def decoded (s : State) : State := decodePhase (fetchPhase s)

theorem decoded_eq (s : State) :
    decoded s = (((s.setMar s.pc).setIr (s.cell s.pc)).setPc (s.pc + 1)).setPhase .execute := by
  rw [decoded, fetchPhase_eq]; rfl

theorem step_eq_next_of_fetch {s : State} (h : s.phase = .fetch) :
    step s = .next (execEffect (decodeByte (s.cell s.pc)) (decoded s)) := by
  rw [step_of_fetch s h, ← decoded_eq, exec_eq_next]

theorem traceStep_of_fetch {s : State} (h : s.phase = .fetch) :
    traceStep s = tracePhase s ++ tracePhase (fetchPhase s) ++ tracePhase (decoded s) := by
  simp only [traceStep, h, decoded]

theorem tracePhase_fetchPhase (s : State) :
    tracePhase (fetchPhase s) = [.decode (opcodeName (decodeByte (s.cell s.pc)))] := by
  rw [tracePhase_of_decode rfl, fetchPhase_eq]; rfl

theorem tracePhase_decoded (s : State) : tracePhase (decoded s) =
    (if (s.cell s.pc).toNat / 16 = 5 then [.output s.a] else []) ++
      [.execute (execEffect (decodeByte (s.cell s.pc)) (decoded s)).snapshot] := by
  have hir : (decoded s).ir = s.cell s.pc := by rw [decoded_eq]; rfl
  have ha : (decoded s).a = s.a := by rw [decoded_eq]; rfl
  rw [tracePhase_of_execute rfl, hir, outputEvents, ha]
  simp only [decodeByte_eq_out_iff]

/-- Settles O48: the names by opcode, and the events of a step phase by phase. -/
theorem traceEventsOfAStep : Obligations.TraceEventsOfAStep := by
  refine ⟨fun b n m hrow hn => ?_, fun b => opcodeName_decodeByte_of_undefined, fun s t h hstep => ?_,
    fun s t h hstep => ?_, fun opts s => rfl⟩
  · subst hn
    exact opcodeName_decodeByte_of_row hrow
  · obtain rfl := next_inj ((phaseStep_of_fetch s h).symm.trans hstep)
    rw [tracePhase_of_fetch h, fetchPhase_eq]; rfl
  · obtain rfl := next_inj ((step_eq_next_of_fetch h).symm.trans hstep)
    rw [traceStep_of_fetch h, tracePhase_of_fetch h, tracePhase_fetchPhase, tracePhase_decoded,
      List.append_assoc, List.append_assoc]; rfl

/-! ### One turn at the ports (R155 to R160) -/

theorem outLog_execEffect (i : Instr) (s : State) :
    (execEffect i s).outLog = s.outLog ++ if i = .out then [s.a] else [] := by
  cases i <;> simp [execEffect]

/-- Without reset, the output of a turn is what it appended to the history. -/
theorem portEmitted_of_outLog_append {p : PortIn} {s : State} {vs : List Byte} (hr : p.rst = false)
    (h : (portTick p s).outLog = s.outLog ++ vs) : portEmitted p s = vs.head? := by
  simp [portEmitted, hr, h]

theorem held_and_silent {p : PortIn} {s : State} (h : portTick p s = s) :
    portTick p s = s ∧ (portOut p s).out = none := ⟨h, portEmitted_of_portTick_eq h⟩

theorem portTick_of_reset {p : PortIn} (s : State) (hr : p.rst = true) : portTick p s = State.reset := by
  simp [portTick, hr]

theorem portTick_of_load {p : PortIn} {s : State} (hr : p.rst = false) (hh : s.phase ≠ .halted)
    (hf : s.phase ≠ .faulted) (hu : p.run = false) (hl : p.ldEn = true) :
    portTick p s = s.storeCell p.ldAddr p.ldData := by
  simp [portTick, hr, hh, hf, hu, hl]

theorem portTick_of_idle {p : PortIn} (s : State) (hr : p.rst = false) (hu : p.run = false)
    (hl : p.ldEn = false) : portTick p s = s := by
  simp [portTick, hr, hu, hl]

/-- In FETCH with `run` up, a turn is the paused step. -/
theorem portTick_of_run_of_fetch {p : PortIn} {s t : State} (hr : p.rst = false) (hu : p.run = true)
    (h : s.phase = .fetch) (hp : pausedStep p.pause p.ack s = .next t) : portTick p s = t :=
  portTick_running p s t hr hu (by simp [h]) (by simp [h]) hp

theorem pausedStep_of_not_waiting {pause ack : Bool} (s : State) (h : pause = false ∨ ack = true) :
    pausedStep pause ack s = step s := by
  rcases h with rfl | rfl
  · exact pausedStep_unpaused ack s
  · exact pausedStep_acknowledged pause s

/-- Settles O49: what `portTick` is in each setting of the inputs, and its output from the output history. -/
theorem portsDriveTheEngine : Obligations.PortsDriveTheEngine := by
  refine ⟨fun p s hr => ⟨portTick_of_reset s hr, if_pos hr⟩, fun p s hr hh hf hu hl => ?_,
    fun p s hr hu hl => held_and_silent (portTick_of_idle s hr hu hl), fun p s hr hu h hp ha => ?_,
    fun p s hr hu h hgo => ?_, fun p s hr h => held_and_silent (portTick_of_terminal h hr)⟩
  · have htick : portTick p s = s.storeCell p.ldAddr p.ldData := portTick_of_load hr hh hf hu hl
    have hout : portEmitted p s = none :=
      portEmitted_of_outLog_append (vs := []) hr (by simp [htick])
    rw [htick]
    exact ⟨by simp [State.cell_storeCell], fun c hc => by simp [State.cell_storeCell, hc], rfl, hout⟩
  · have hwait : pausedStep p.pause p.ack s = .next s := by rw [hp, ha, pausedStep_waiting s h]
    exact held_and_silent (portTick_of_run_of_fetch hr hu h hwait)
  · have hstep := step_eq_next_of_fetch h
    have htick := portTick_of_run_of_fetch hr hu h ((pausedStep_of_not_waiting s hgo).trans hstep)
    refine ⟨by rw [htick, hstep], ?_⟩
    have hlog : (portTick p s).outLog = s.outLog ++ if (s.cell s.pc).toNat / 16 = 5 then [s.a] else [] := by
      rw [htick, outLog_execEffect, decoded_eq]
      simp [decodeByte_eq_out_iff]
    refine (portEmitted_of_outLog_append hr hlog).trans ?_
    split <;> rfl

/-! ### Runs of steps: how a run begins, ends and goes on -/

theorem nextPhase_cases (op : Nibble) :
    nextPhase op = .fetch ∨ nextPhase op = .halted ∨ nextPhase op = .faulted := by
  unfold nextPhase; split_ifs <;> simp

/-- Every step is the EXECUTE phase of some instruction in some state. -/
theorem exists_execEffect_of_step {s t : State} (h : step s = .next t) : ∃ i u, t = execEffect i u := by
  unfold step instructionStep at h
  split at h
  · exact ⟨_, _, eq_execEffect_of_exec h⟩
  · exact ⟨_, _, eq_execEffect_of_exec h⟩
  · exact ⟨_, _, eq_execEffect_of_exec h⟩
  · cases h
  · cases h

/-- A step leaves the machine between instruction steps (R28). -/
theorem phase_of_step {s t : State} (h : step s = .next t) :
    t.phase = .fetch ∨ t.phase = .halted ∨ t.phase = .faulted := by
  obtain ⟨i, u, rfl⟩ := exists_execEffect_of_step h
  rw [phase_execEffect]
  exact nextPhase_cases _

theorem not_terminal_of_step {s t : State} (h : step s = .next t) : s.phase ≠ .halted ∧ s.phase ≠ .faulted := by
  constructor <;> intro hs
  · rw [step_of_halted hs] at h; cases h
  · rw [step_of_faulted hs] at h; cases h

theorem run_succ_of_step {s u : State} (n : Nat) (h : step s = .next u) :
    Host.Core.run core (n + 1) s = Host.Core.run core n u := by
  have hcore : core.step s = .next u := h
  simp only [Host.Core.run, hcore]

theorem exists_step_of_run_succ {n : Nat} {s t : State} (h : Host.Core.run core (n + 1) s = .next t) :
    ∃ u, step s = .next u ∧ Host.Core.run core n u = .next t := by
  simp only [Host.Core.run] at h
  split at h
  next u hu => exact ⟨u, hu, h⟩
  next => cases h
  next => cases h

/-- The last step of a run. -/
theorem exists_last_step_of_run_succ {n : Nat} {s t : State} (h : Host.Core.run core (n + 1) s = .next t) :
    ∃ u, Host.Core.run core n s = .next u ∧ step u = .next t := by
  induction n generalizing s with
  | zero =>
    obtain ⟨u, hs, hu⟩ := exists_step_of_run_succ h
    exact ⟨s, rfl, hs.trans hu⟩
  | succ n ih =>
    obtain ⟨v, hs, hv⟩ := exists_step_of_run_succ h
    obtain ⟨u, hrun, hu⟩ := ih hv
    exact ⟨u, (run_succ_of_step n hs).trans hrun, hu⟩

theorem phase_of_run {n : Nat} {s t : State} (hs : s.phase = .fetch) (h : Host.Core.run core n s = .next t) :
    t.phase = .fetch ∨ t.phase = .halted ∨ t.phase = .faulted := by
  cases n with
  | zero =>
    obtain rfl : s = t := next_inj h
    exact .inl hs
  | succ n =>
    obtain ⟨u, -, hu⟩ := exists_last_step_of_run_succ h
    exact phase_of_step hu

/-- A run that a further step can follow has stayed out of the terminal phases. -/
theorem phase_eq_fetch_of_run_of_step {n : Nat} {s u t : State} (hs : s.phase = .fetch)
    (hrun : Host.Core.run core n s = .next u) (h : step u = .next t) : u.phase = .fetch := by
  obtain ⟨hh, hf⟩ := not_terminal_of_step h
  simpa [hh, hf] using phase_of_run hs hrun

/-- A run that reaches FETCH did not begin in a terminal phase. -/
theorem not_terminal_of_run_fetch {n : Nat} {s t : State} (h : Host.Core.run core n s = .next t)
    (ht : t.phase = .fetch) : s.phase ≠ .halted ∧ s.phase ≠ .faulted := by
  cases n with
  | zero =>
    obtain rfl : s = t := next_inj h
    simp [ht]
  | succ n =>
    obtain ⟨u, hs, -⟩ := exists_step_of_run_succ h
    exact not_terminal_of_step hs

/-! ### Pause mode (R103, R160) -/

theorem report_of_fetch {s : State} (h : s.phase = .fetch) : s.report = none := by
  simp only [State.report, h]

/-- A step after which the run loop goes on has left the machine in FETCH. -/
theorem phase_eq_fetch_of_step_of_no_report {s t : State} (h : step s = .next t) (hr : t.report = none) :
    t.phase = .fetch := by
  rcases phase_of_step h with ht | ht | ht
  · exact ht
  · simp [State.report, ht] at hr
  · simp [State.report, ht] at hr

theorem pausedStep_of_not_fetch (pause ack : Bool) {s : State} (h : s.phase ≠ .fetch) :
    pausedStep pause ack s = step s := by
  simp [pausedStep, h]

theorem pausedRun_cons_of_next {pause ack : Bool} {s t : State} (rest : List Bool)
    (h : pausedStep pause ack s = .next t) : pausedRun pause (ack :: rest) s = pausedRun pause rest t := by
  simp only [pausedRun, h]

/-- A turn in which a step faults ends the run with that fault, acknowledged or not: the engine waits in FETCH
alone, where no step faults. -/
theorem pausedRun_cons_of_fault (pause ack : Bool) (rest : List Bool) {s : State} {r : Fault}
    (hs : s.phase ≠ .fetch) (h : step s = .fault r) : pausedRun pause (ack :: rest) s = .fault r := by
  simp only [pausedRun, pausedStep_of_not_fetch pause ack hs, h]

theorem pausedRun_append {pause : Bool} {acks : List Bool} {s t : State} (rest : List Bool)
    (h : pausedRun pause acks s = .next t) : pausedRun pause (acks ++ rest) s = pausedRun pause rest t := by
  induction acks generalizing s with
  | nil =>
    obtain rfl : s = t := next_inj h
    rfl
  | cons ack acks ih =>
    simp only [pausedRun, List.cons_append] at h ⊢
    split at h
    · exact ih h
    · cases h
    · cases h

/-- A withheld acknowledgement changes nothing in the run loop; a given one is a step. -/
theorem pausedRunLoop_paused_eq (acks : List Bool) (s : State) (hs : s.phase = .fetch) :
    pausedRunLoop true acks s = runLoop (acks.count true) s := by
  induction acks generalizing s with
  | nil => rfl
  | cons ack acks ih =>
    cases ack with
    | false => simp [pausedRunLoop, pausedStep_waiting s hs, report_of_fetch hs, ih s hs]
    | true =>
      simp only [pausedRunLoop, pausedStep_acknowledged, List.count_cons_self, runLoop]
      split
      next t ht =>
        split
        next => rfl
        next hr => exact ih t (phase_eq_fetch_of_step_of_no_report ht hr)
      next => rfl
      next => rfl

theorem pausedRunLoop_unpaused_eq (acks : List Bool) (s : State) :
    pausedRunLoop false acks s = runLoop acks.length s := by
  induction acks generalizing s with
  | nil => rfl
  | cons ack acks ih => simp only [pausedRunLoop, pausedStep_unpaused, List.length_cons, runLoop, ih]

theorem pausedRun_unpaused_eq (acks : List Bool) (s : State) :
    pausedRun false acks s = Host.Core.run core acks.length s := by
  induction acks generalizing s with
  | nil => rfl
  | cons ack acks ih =>
    have hcore : core.step s = step s := rfl
    simp only [pausedRun, pausedStep_unpaused, List.length_cons, Host.Core.run, ih, hcore]
    cases step s <;> rfl

/-- Turn by turn: the FETCH state that as many steps as were acknowledged lead to. -/
theorem pausedRun_of_run_fetch {acks : List Bool} {s t : State} (hs : s.phase = .fetch)
    (h : Host.Core.run core (acks.count true) s = .next t) (ht : t.phase = .fetch) :
    pausedRun true acks s = .next t := by
  induction acks generalizing s with
  | nil => exact h
  | cons ack acks ih =>
    cases ack with
    | false =>
      rw [pausedRun_cons_of_next acks (pausedStep_waiting s hs)]
      exact ih hs (by simpa using h)
    | true =>
      rw [List.count_cons_self] at h
      obtain ⟨u, hstep, hrun⟩ := exists_step_of_run_succ h
      obtain ⟨hh, hf⟩ := not_terminal_of_run_fetch hrun ht
      have hu : u.phase = .fetch := by simpa [hh, hf] using phase_of_step hstep
      rw [pausedRun_cons_of_next acks ((pausedStep_acknowledged true s).trans hstep)]
      exact ih hu hrun

/-- An acknowledged last turn is the last of the steps: the turns before it reached the FETCH state it begins in. -/
theorem pausedRun_of_run_acknowledged {acks : List Bool} {s t : State} (hs : s.phase = .fetch)
    (h : Host.Core.run core (acks.count true + 1) s = .next t) : pausedRun true (acks ++ [true]) s = .next t := by
  obtain ⟨u, hrun, hstep⟩ := exists_last_step_of_run_succ h
  have hu : u.phase = .fetch := phase_eq_fetch_of_run_of_step hs hrun hstep
  rw [pausedRun_append [true] (pausedRun_of_run_fetch hs hrun hu)]
  exact pausedRun_cons_of_next [] ((pausedStep_acknowledged true u).trans hstep)

/-- Settles O47, by induction on the acknowledgements; past the end of the run every turn is a step. -/
theorem pauseOnlyDelays : Obligations.PauseOnlyDelays := by
  refine ⟨pausedRunLoop_paused_eq, pausedRunLoop_unpaused_eq, fun acks s t => pausedRun_of_run_fetch,
    fun acks s t hs h => ?_, pausedRun_unpaused_eq⟩
  have hrun : pausedRun true (acks ++ [true]) s = .next t := pausedRun_of_run_acknowledged hs h
  refine ⟨hrun, fun ack rest => ?_⟩
  have hsplit : acks ++ true :: ack :: rest = (acks ++ [true]) ++ ack :: rest := by simp
  rw [hsplit, pausedRun_append (ack :: rest) hrun]
  exact ⟨fun ht => pausedRun_cons_of_fault true ack rest (by simp [ht]) (step_of_halted ht),
    fun ht => pausedRun_cons_of_fault true ack rest (by simp [ht]) (step_of_faulted ht)⟩

end Sys2Proof.Machine
end

section
/-! LDI (41_data_movement.md), and the step from FETCH of a byte known by its opcode nibble. -/

namespace Sys2Proof.Machine

open Sys2Proof.Safety

/-- The step runs the row of the opcode map that the byte's high nibble selects, on the byte's operand (R73, R96). -/
theorem step_of_aboutToRun {n : Nat} {s : State} (hn : n < 16) (h : AboutToRun n s) :
    step s = .next (execEffect (opcodeMap[n] (operandAtPc s)) (decoded s)) := by
  obtain ⟨hfetch, hop⟩ := h
  rw [step_eq_next_of_fetch hfetch, decodeByte_of_opcode hn ((toNat_opcodeOf _).trans hop)]

/-- Settles O22: EXECUTE writes the immediate to `A` and nothing else but `PHASE`; over the whole step, FETCH adds
its own three writes, and the immediate is the operand field of the byte it put in `IR`. -/
theorem ldiLoadsTheZeroExtendedNibble : Obligations.LdiLoadsTheZeroExtendedNibble := by
  refine ⟨fun x s => ⟨_, exec_eq_next (.ldi x) s, toNat_immediate x, ?_⟩,
    fun s h => ⟨_, step_of_aboutToRun (by decide) h, ?_⟩⟩
  · exact ⟨rfl, rfl, rfl, rfl, rfl, rfl, rfl, fun _ => rfl⟩
  · rw [decoded_eq]
    have ha : (immediate (operandAtPc s)).toNat = (s.cell s.pc).toNat % 16 :=
      (toNat_immediate _).trans (toNat_operandOf _)
    exact ⟨⟨rfl, rfl, rfl⟩, ha, rfl, rfl, rfl, rfl, fun _ => rfl⟩

end Sys2Proof.Machine
end

section
/-! JMP and JC (43_control_transfer.md), and what every other instruction leaves `PC` and `CARRY` at (R132). -/

namespace Sys2Proof.Machine

open Sys2Proof.Safety

/-! ### Who writes PC and CARRY in EXECUTE (R23, R26) -/

/-- Only a taken jump writes `PC` in EXECUTE, and it writes its operand. -/
theorem jump_of_execEffect_pc_ne {i : Instr} {s : State} (h : (execEffect i s).pc ≠ s.pc) :
    i = .jmp (execEffect i s).pc ∨ i = .jc (execEffect i s).pc ∧ s.carry = true := by
  cases i with
  | jmp x => exact .inl rfl
  | jc x =>
    cases hc : s.carry with
    | true => exact .inr (by simp [execEffect, hc])
    | false => simp [execEffect, hc] at h
  | _ => exact absurd rfl h

theorem writer_of_execEffect_carry_ne {i : Instr} {s : State} (h : (execEffect i s).carry ≠ s.carry) :
    ∃ x, i = .add x ∨ i = .sub x := by
  cases i with
  | add x => exact ⟨x, .inl rfl⟩
  | sub x => exact ⟨x, .inr rfl⟩
  | _ => exact absurd rfl h

/-! ### The same over the whole step, by the byte's opcode nibble -/

/-- The row a byte decodes to gives back its high nibble (R73). -/
theorem aboutToRun_of_decodeByte {s : State} {i : Instr} (hfetch : s.phase = .fetch)
    (h : decodeByte (s.cell s.pc) = i) : AboutToRun i.opcode.toNat s :=
  ⟨hfetch, h ▸ (toNat_opcode_decodeByte _).symm⟩

@[simp] theorem decoded_pc (s : State) : (decoded s).pc = s.pc + 1 := by rw [decoded_eq]; rfl

@[simp] theorem decoded_carry (s : State) : (decoded s).carry = s.carry := by rw [decoded_eq]; rfl

/-- Settles O19: were `PC` or `CARRY` written in EXECUTE, the decoded instruction would be one of its writers, and
the byte's opcode nibble one the premises exclude. -/
theorem sequentialFlowUnlessAJumpIsTaken : Obligations.SequentialFlowUnlessAJumpIsTaken := by
  intro s h hjmp hjc
  refine ⟨_, step_eq_next_of_fetch h, ?_, fun hadd hsub => ?_, fun hop => ?_⟩
  · have hpc : (execEffect (decodeByte (s.cell s.pc)) (decoded s)).pc = (decoded s).pc := by
      by_contra hne
      rcases jump_of_execEffect_pc_ne hne with hi | ⟨hi, hcarry⟩
      · exact hjmp (aboutToRun_of_decodeByte h hi)
      · exact hjc ⟨aboutToRun_of_decodeByte h hi, by rwa [decoded_carry] at hcarry⟩
    rw [hpc, decoded_pc]
    exact BitVec.toNat_add s.pc 1
  · rw [← decoded_carry]
    by_contra hne
    obtain ⟨x, hi | hi⟩ := writer_of_execEffect_carry_ne hne
    · exact hadd (aboutToRun_of_decodeByte h hi)
    · exact hsub (aboutToRun_of_decodeByte h hi)
  · rw [phase_execEffect]
    exact nextPhase_of_le_eight (by rwa [toNat_opcode_decodeByte])

/-! ### JC (R131) -/

/-- The flag chooses between the operand and the address FETCH left in `PC`. -/
theorem pc_execEffect_jc (x : Nibble) (s : State) :
    (execEffect (.jc x) s).pc = if s.carry then x else s.pc := rfl

/-- Settles O28: `pc_execEffect_jc` in the given state and in the one FETCH and DECODE leave; EXECUTE writes nothing
else but `PHASE`. -/
theorem jcJumpsExactlyWhenCarryIsSet : Obligations.JcJumpsExactlyWhenCarryIsSet := by
  refine ⟨fun x s => ⟨_, exec_eq_next (.jc x) s, fun hc => ?_, fun hc => ?_, ?_⟩, fun s h => ?_⟩
  · simp [pc_execEffect_jc, hc]
  · simp [pc_execEffect_jc, hc]
  · exact ⟨rfl, rfl, rfl, rfl, rfl, rfl, rfl, fun _ => rfl⟩
  · have hstep : step s = .next (execEffect (.jc (operandAtPc s)) (decoded s)) :=
      step_of_aboutToRun (by decide) h
    refine ⟨_, hstep, fun hc => ?_, fun hc => ?_, ?_⟩
    · simp [pc_execEffect_jc, hc]
    · have hpc : (execEffect (.jc (operandAtPc s)) (decoded s)).pc = s.pc + 1 := by simp [pc_execEffect_jc, hc]
      rw [hpc]
      exact BitVec.toNat_add s.pc 1
    · rw [decoded_eq]
      exact ⟨rfl, rfl, rfl, rfl, rfl, rfl, rfl, fun _ => rfl⟩

/-! ### JMP (R130) -/

/-- Settles O27: EXECUTE writes the operand to `PC` over the address FETCH left there, and nothing else but
`PHASE`; over the whole step, FETCH adds its writes of `MAR` and `IR`. -/
theorem jmpSetsPcToTheOperand : Obligations.JmpSetsPcToTheOperand := by
  refine ⟨fun x s => ⟨_, exec_eq_next (.jmp x) s, ?_⟩, fun s h => ⟨_, step_of_aboutToRun (by decide) h, ?_⟩⟩
  · exact ⟨rfl, rfl, rfl, rfl, rfl, rfl, rfl, rfl, fun _ => rfl⟩
  · rw [decoded_eq]
    exact ⟨rfl, rfl, rfl, rfl, rfl, rfl, rfl, rfl, fun _ => rfl⟩

end Sys2Proof.Machine
end

section
/-! NOP (44_system.md): the whole step is FETCH's writes and the return to FETCH. -/

namespace Sys2Proof.Machine

open Sys2Proof.Safety

/-- Settles O30: EXECUTE writes `PHASE` alone; over the whole step, the state FETCH and DECODE leave differs from
the old one in `MAR`, `IR` and `PC`, which hold what FETCH wrote, and in `PHASE`, which goes back to FETCH. -/
theorem nopChangesWhatFetchChanges : Obligations.NopChangesWhatFetchChanges := by
  refine ⟨fun s => ⟨_, exec_eq_next .nop s, ?_⟩, fun s h => ?_⟩
  · exact ⟨rfl, rfl, rfl, rfl, rfl, rfl, rfl, rfl, fun _ => rfl⟩
  · have hstep : step s = .next (execEffect .nop (decoded s)) := step_of_aboutToRun (by decide) h
    refine ⟨_, hstep, ?_⟩
    rw [decoded_eq]
    exact ⟨⟨rfl, rfl, rfl⟩, rfl, rfl, rfl, rfl, rfl, fun _ => rfl⟩

end Sys2Proof.Machine
end

section
/-! The host's side of the interface (45_host_interface.md): the contract automaton against the duties of R161, and
the run under a host that acknowledges eventually. -/

namespace Sys2Proof.Machine

/-! ### The host's contract (R161) -/

/-- The turns since the last reset, the latest first. -/
def sinceReset (ts : List HostTurn) : List HostTurn := ts.reverse.takeWhile fun q => !q.port.rst

theorem sinceReset_snoc (ts : List HostTurn) (t : HostTurn) :
    sinceReset (ts ++ [t]) = if t.port.rst then [] else t :: sinceReset ts := by
  cases h : t.port.rst <;> simp [sinceReset, h]

/-- What R161 asks of the host in the turn `t` that is no reset, after the turns `before`. -/
def MeetsDuties (before : List HostTurn) (t : HostTurn) : Prop :=
  (t.port.run = true ∨ t.port.ldEn = true → ∃ q ∈ before, q.port.rst = true) ∧
  (t.port.run = true → t.port.ldEn = false ∧ t.loadFailed = false ∧
    ∀ q ∈ sinceReset before, q.loadFailed = false) ∧
  ((∃ q ∈ sinceReset before, q.port.run = true) → t.port.run = true)

/-- The stage of the contract says what the duties need to know of the turns so far. Load failures before the
first reset do not matter, since no run may follow them. -/
structure HostStage.Summarizes (g : HostStage) (ts : List HostTurn) : Prop where
  reset_iff : (∃ q ∈ ts, q.port.rst = true) ↔ g ≠ .beforeReset
  run_iff : (∃ q ∈ sinceReset ts, q.port.run = true) ↔ g = .running
  failed_iff : g ≠ .beforeReset → ((∃ q ∈ sinceReset ts, q.loadFailed = true) ↔ g = .loadFailed)

theorem HostStage.beforeReset_summarizes_nil : HostStage.beforeReset.Summarizes [] := by
  constructor <;> simp [sinceReset]

theorem HostStage.after_of_reset (g : HostStage) {t : HostTurn} (h : t.port.rst = true) :
    g.after t = some .loading := by
  simp [HostStage.after, h]

/-- Which turns without reset a stage allows. -/
theorem HostStage.isSome_after_iff (g : HostStage) {t : HostTurn} (h : t.port.rst = false) :
    (g.after t).isSome = true ↔
      (t.port.run = true ∨ t.port.ldEn = true → g ≠ .beforeReset) ∧
      (t.port.run = true → t.port.ldEn = false ∧ t.loadFailed = false ∧ g ≠ .loadFailed) ∧
      (g = .running → t.port.run = true) := by
  cases hrun : t.port.run with
  | false => cases g <;> simp [HostStage.after, h, hrun]
  | true => cases g <;> simp [HostStage.after, h, hrun]

/-- Where an allowed turn without reset leads. -/
theorem HostStage.after_eq_some {g g' : HostStage} {t : HostTurn} (h : t.port.rst = false)
    (hg : g.after t = some g') :
    (g' ≠ .beforeReset ↔ g ≠ .beforeReset) ∧
    (g' = .running ↔ t.port.run = true ∨ g = .running) ∧
    (g ≠ .beforeReset → (g' = .loadFailed ↔ t.loadFailed = true ∨ g = .loadFailed)) := by
  cases g with
  | beforeReset =>
    obtain ⟨⟨hrun, -⟩, rfl⟩ : (t.port.run = false ∧ t.port.ldEn = false) ∧ HostStage.beforeReset = g' := by
      simpa [HostStage.after, h] using hg
    simp [hrun]
  | loading =>
    cases hrun : t.port.run with
    | false =>
      obtain rfl : (if t.loadFailed then HostStage.loadFailed else .loading) = g' := by
        simpa [HostStage.after, h, hrun] using hg
      cases t.loadFailed <;> simp
    | true =>
      obtain ⟨⟨-, hf⟩, rfl⟩ : (t.port.ldEn = false ∧ t.loadFailed = false) ∧ HostStage.running = g' := by
        simpa [HostStage.after, h, hrun] using hg
      simp [hf]
  | loadFailed =>
    obtain ⟨hrun, rfl⟩ : t.port.run = false ∧ HostStage.loadFailed = g' := by
      simpa [HostStage.after, h] using hg
    simp [hrun]
  | running =>
    obtain ⟨⟨-, hf⟩, rfl⟩ :
        ((t.port.run = true ∧ t.port.ldEn = false) ∧ t.loadFailed = false) ∧ HostStage.running = g' := by
      simpa [HostStage.after, h] using hg
    simp [hf]

/-- A turn is allowed exactly when it is a reset or meets its duties. -/
theorem HostStage.Summarizes.isSome_after_iff_meetsDuties {g : HostStage} {ts : List HostTurn}
    (hg : g.Summarizes ts) (t : HostTurn) :
    (g.after t).isSome = true ↔ (t.port.rst = false → MeetsDuties ts t) := by
  cases hr : t.port.rst with
  | true => simp [g.after_of_reset hr]
  | false =>
    refine Iff.trans ?_ (imp_iff_right rfl).symm
    rw [g.isSome_after_iff hr, MeetsDuties, hg.reset_iff, hg.run_iff]
    refine and_congr_right fun hreset => and_congr_left' (forall_congr' fun hrun => ?_)
    have hfailed : g ≠ .loadFailed ↔ ∀ q ∈ sinceReset ts, q.loadFailed = false := by
      simpa using (hg.failed_iff (hreset (.inl hrun))).not.symm
    rw [hfailed]

theorem HostStage.Summarizes.snoc {g g' : HostStage} {ts : List HostTurn} {t : HostTurn}
    (hg : g.Summarizes ts) (h : g.after t = some g') : g'.Summarizes (ts ++ [t]) := by
  cases hr : t.port.rst with
  | true =>
    obtain rfl : HostStage.loading = g' := by simpa [g.after_of_reset hr] using h
    constructor <;> simp [sinceReset_snoc, hr]
  | false =>
    obtain ⟨hreset, hrun, hfailed⟩ := after_eq_some hr h
    have hsince : sinceReset (ts ++ [t]) = t :: sinceReset ts := by simp [sinceReset_snoc, hr]
    refine ⟨?_, ?_, fun hg' => ?_⟩
    · simp [hreset, ← hg.reset_iff, hr]
    · simp [hsince, hrun, ← hg.run_iff]
    · have hne := hreset.mp hg'
      simp [hsince, hfailed hne, ← hg.failed_iff hne]

/-- Every turn of `ts`, which follow the turns `before`, is a reset or meets its duties. -/
def AllMeetDuties (before ts : List HostTurn) : Prop :=
  ∀ (mid after : List HostTurn) (t : HostTurn), ts = mid ++ t :: after → t.port.rst = false →
    MeetsDuties (before ++ mid) t

theorem allMeetDuties_nil (before : List HostTurn) : AllMeetDuties before [] := by
  simp [AllMeetDuties]

theorem allMeetDuties_cons (before ts : List HostTurn) (t : HostTurn) : AllMeetDuties before (t :: ts) ↔
    (t.port.rst = false → MeetsDuties before t) ∧ AllMeetDuties (before ++ [t]) ts := by
  refine ⟨fun h => ⟨?_, fun mid after u hts => ?_⟩, fun ⟨hhead, htail⟩ mid after u hts => ?_⟩
  · simpa using h [] ts t rfl
  · simpa using h (t :: mid) after u (by simp [hts])
  · cases mid with
    | nil =>
      obtain ⟨rfl, rfl⟩ : t = u ∧ ts = after := by simpa using hts
      simpa using hhead
    | cons v mid =>
      obtain ⟨rfl, rfl⟩ : t = v ∧ ts = mid ++ u :: after := by simpa using hts
      simpa using htail mid after u rfl

/-- The automaton, from a stage that summarizes the turns before, allows just the turns that meet their duties. -/
theorem HostStage.Summarizes.isSome_afterAll_iff {g : HostStage} {before : List HostTurn}
    (hg : g.Summarizes before) (ts : List HostTurn) :
    (g.afterAll ts).isSome = true ↔ AllMeetDuties before ts := by
  induction ts generalizing g before with
  | nil => exact iff_of_true rfl (allMeetDuties_nil before)
  | cons t ts ih =>
    rw [allMeetDuties_cons, ← hg.isSome_after_iff_meetsDuties, HostStage.afterAll]
    cases h : g.after t with
    | none => simp
    | some g' => simpa using ih (hg.snoc h)

/-- Settles O52: the stages of the automaton summarize the turns so far, beginning with none. -/
theorem hostContractTurnByTurn : Obligations.HostContractTurnByTurn :=
  HostStage.beforeReset_summarizes_nil.isSome_afterAll_iff

/-! ### The run under a host that acknowledges eventually (R103, D11) -/

theorem portRun_range_succ (turns : Nat → PortIn) (n : Nat) (s : State) :
    portRun ((List.range (n + 1)).map turns) s =
      portTick (turns n) (portRun ((List.range n).map turns) s) := by
  simp [List.range_succ, portRun_append]

/-- In FETCH with `run` up, a paused turn without acknowledgement holds the state. -/
theorem portTick_of_waiting {p : PortIn} {s : State} (hr : p.rst = false) (hu : p.run = true)
    (h : s.phase = .fetch) (hwait : ¬(p.pause = false ∨ p.ack = true)) : portTick p s = s := by
  obtain ⟨hp, ha⟩ : p.pause = true ∧ p.ack = false := by simpa using hwait
  exact portTick_of_run_of_fetch hr hu h (by rw [hp, ha, pausedStep_waiting s h])

/-- In FETCH with `run` up, a turn that is unpaused or acknowledged is a step. -/
theorem portTick_of_released {p : PortIn} {s t : State} (hr : p.rst = false) (hu : p.run = true)
    (h : s.phase = .fetch) (hgo : p.pause = false ∨ p.ack = true) (hstep : step s = .next t) :
    portTick p s = t :=
  portTick_of_run_of_fetch hr hu h ((pausedStep_of_not_waiting s hgo).trans hstep)

/-- The ports wait in FETCH for the next released turn, however many turns `d` that takes, and then step. -/
theorem exists_portRun_of_step_of_released {turns : Nat → PortIn} {s u t : State} (d : Nat) {n : Nat}
    (hrun : ∀ n, (turns n).rst = false ∧ (turns n).run = true)
    (hu : portRun ((List.range n).map turns) s = u) (hfetch : u.phase = .fetch) (hstep : step u = .next t)
    (hgo : (turns (n + d)).pause = false ∨ (turns (n + d)).ack = true) :
    ∃ m, portRun ((List.range m).map turns) s = t := by
  induction d generalizing n with
  | zero =>
    obtain ⟨hr, hup⟩ := hrun n
    exact ⟨n + 1, by rw [portRun_range_succ, hu, portTick_of_released hr hup hfetch hgo hstep]⟩
  | succ d ih =>
    obtain ⟨hr, hup⟩ := hrun n
    by_cases hnow : (turns n).pause = false ∨ (turns n).ack = true
    · exact ⟨n + 1, by rw [portRun_range_succ, hu, portTick_of_released hr hup hfetch hnow hstep]⟩
    · have hheld : portRun ((List.range (n + 1)).map turns) s = u := by
        rw [portRun_range_succ, hu, portTick_of_waiting hr hup hfetch hnow]
      exact ih hheld (by rwa [Nat.add_right_comm])

/-- Settles O53, by induction on the steps: the state before the last step is reached and is in FETCH, and
there the ports wait for the turn that releases the step. -/
theorem acknowledgedRunReachesEveryState : Obligations.AcknowledgedRunReachesEveryState := by
  intro turns s t k hs hrun hack h
  induction k generalizing t with
  | zero => exact ⟨0, next_inj h⟩
  | succ k ih =>
    obtain ⟨u, hk, hstep⟩ := exists_last_step_of_run_succ h
    obtain ⟨n, hn⟩ := ih u hk
    obtain ⟨m, hle, hgo⟩ := hack n
    obtain ⟨d, rfl⟩ := Nat.exists_eq_add_of_le hle
    exact exists_portRun_of_step_of_released d hrun hn (phase_eq_fetch_of_run_of_step hs hk hstep) hstep hgo

end Sys2Proof.Machine
end

section
/-! What a step leaves the next step to see (R196), and the boot sequence at the ports (R192, R193). -/

namespace Sys2Proof.Machine

/-! ### JC after the instruction that set the flag (R120, R121, R131) -/

/-- `CARRY` after ADD, without the detour over the integers (R120). -/
theorem carryOfSum_exactSum (a m : Byte) :
    carryOfSum (exactSum a m) = decide (256 ≤ a.toNat + m.toNat) :=
  decide_eq_decide.mpr (by simp only [exactSum]; omega)

/-- `CARRY` after SUB: the difference is negative exactly when `A` is the smaller (R121, D19). -/
theorem carryOfDiff_exactDiff (a m : Byte) :
    carryOfDiff (exactDiff a m) = decide (a.toNat < m.toNat) :=
  decide_eq_decide.mpr (by simp only [exactDiff]; omega)

@[simp] theorem decoded_a (s : State) : (decoded s).a = s.a := by rw [decoded_eq]; rfl

@[simp] theorem cell_decoded (s : State) (c : Nibble) : (decoded s).cell c = s.cell c := by
  simp [decoded]

/-- After a step that went on in sequence and stored nothing, a JC in the next cell tests the flag that step
left. -/
theorem exists_step_jc_of_sequential {s t : State} {y : Nibble} (hphase : t.phase = .fetch)
    (hpc : t.pc = s.pc + 1) (hcell : ∀ c, t.cell c = s.cell c)
    (hjc : decodeByte (s.cell (s.pc + 1)) = .jc y) :
    ∃ u, step t = .next u ∧ u.pc = if t.carry then y else s.pc + 2 := by
  have hdecode : decodeByte (t.cell t.pc) = .jc y := by rw [hpc, hcell, hjc]
  refine ⟨_, step_eq_next_of_fetch hphase, ?_⟩
  rw [hdecode, pc_execEffect_jc, decoded_carry, decoded_pc, hpc, BitVec.add_assoc]
  rfl

/-- ADD and SUB go on in sequence and store nothing, so a JC in the next cell tests the flag they leave. -/
theorem exists_steps_jc_of_add_or_sub {s : State} {i : Instr} {x y : Nibble} (hs : s.phase = .fetch)
    (hi : decodeByte (s.cell s.pc) = i) (harith : i = .add x ∨ i = .sub x)
    (hjc : decodeByte (s.cell (s.pc + 1)) = .jc y) :
    ∃ t u, step s = .next t ∧ step t = .next u ∧
      u.pc = if (execEffect i (decoded s)).carry then y else s.pc + 2 := by
  have hstep : step s = .next (execEffect i (decoded s)) := hi ▸ step_eq_next_of_fetch hs
  obtain ⟨u, hu, hpc⟩ : ∃ u, step (execEffect i (decoded s)) = .next u ∧
      u.pc = if (execEffect i (decoded s)).carry then y else s.pc + 2 := by
    rcases harith with rfl | rfl
    · exact exists_step_jc_of_sequential rfl (decoded_pc s) (cell_decoded s) hjc
    · exact exists_step_jc_of_sequential rfl (decoded_pc s) (cell_decoded s) hjc
  exact ⟨_, u, hstep, hu, hpc⟩

/-- Settles O41: the JC tests the flag ADD or SUB left, which is that of the sum or the difference. -/
theorem carryIsSeenByTheNextJc : Obligations.CarryIsSeenByTheNextJc := by
  refine ⟨fun s x y hs hadd hjc => ?_, fun s x y hs hsub hjc => ?_⟩
  · simpa [execEffect, carryOfSum_exactSum] using exists_steps_jc_of_add_or_sub hs hadd (.inl rfl) hjc
  · simpa [execEffect, carryOfDiff_exactDiff] using exists_steps_jc_of_add_or_sub hs hsub (.inr rfl) hjc

/-! ### The load turns install an image (R152, R193) -/

/-- The image that a list of load turns carries. -/
def loadedImage (loads : List PortIn) : List (Int × Int) :=
  loads.map fun p => ((p.ldAddr.toNat : Int), (p.ldData.toNat : Int))

theorem phase_installImage (img : List (Int × Int)) (s : State) :
    (installImage img s).phase = s.phase := by
  induction img generalizing s with
  | nil => rfl
  | cons c img ih => exact ih (setMemory c.1 c.2 s)

theorem portRun_loads {loads : List PortIn} {s : State} (hs : s.phase = .fetch)
    (h : ∀ p ∈ loads, p.rst = false ∧ p.run = false ∧ p.ldEn = true) :
    portRun loads s = installImage (loadedImage loads) s := by
  induction loads generalizing s with
  | nil => rfl
  | cons p ps ih =>
    obtain ⟨⟨hr, hu, hl⟩, hps⟩ := List.forall_mem_cons.mp h
    have htick : portTick p s = setMemory p.ldAddr.toNat p.ldData.toNat s :=
      portTick_of_load hr (by simp [hs]) (by simp [hs]) hu hl
    rw [portRun_cons, htick]
    exact ih hs hps

/-! ### The turns of a run (R98, R103) -/

/-- How many turns release a step: those that are unpaused or acknowledged. -/
def releasedTurns (runs : List PortIn) : Nat := runs.countP fun p => !p.pause || p.ack

theorem terminal_of_report {s : State} {r : Report} (h : s.report = some r) :
    s.phase = .halted ∨ s.phase = .faulted := by
  unfold State.report at h
  split at h
  next hs => exact .inl hs
  next hs => exact .inr hs
  all_goals cases h

/-- Without reset, turns after the end of a run change nothing. -/
theorem portRun_of_terminal {ps : List PortIn} {s : State} (hs : s.phase = .halted ∨ s.phase = .faulted)
    (h : ∀ p ∈ ps, p.rst = false) : portRun ps s = s := by
  induction ps with
  | nil => rfl
  | cons p ps ih =>
    obtain ⟨hr, hps⟩ := List.forall_mem_cons.mp h
    rw [portRun_cons, portTick_of_terminal hs hr, ih hps]

/-- With `run` up, the ports do the steps of the run loop, one in each turn that releases it, and hold its last
state. -/
theorem portRun_runs {runs : List PortIn} {s : State} (hs : s.phase = .fetch)
    (h : ∀ p ∈ runs, p.rst = false ∧ p.run = true) :
    portRun runs s = (runLoop (releasedTurns runs) s).1 := by
  induction runs generalizing s with
  | nil => rfl
  | cons p ps ih =>
    obtain ⟨⟨hr, hu⟩, hps⟩ := List.forall_mem_cons.mp h
    rw [portRun_cons]
    by_cases hgo : p.pause = false ∨ p.ack = true
    · have hstep := step_eq_next_of_fetch hs
      have hcount : releasedTurns (p :: ps) = releasedTurns ps + 1 :=
        List.countP_cons_of_pos (by simpa using hgo)
      rw [portTick_of_released hr hu hs hgo hstep, hcount, runLoop, hstep]
      cases hrep : (execEffect (decodeByte (s.cell s.pc)) (decoded s)).report with
      | some r =>
        simp only [hrep]
        exact portRun_of_terminal (terminal_of_report hrep) fun q hq => (hps q hq).1
      | none =>
        simp only [hrep]
        exact ih (phase_eq_fetch_of_step_of_no_report hstep hrep) hps
    · have hcount : releasedTurns (p :: ps) = releasedTurns ps :=
        List.countP_cons_of_neg (by simpa using hgo)
      rw [portTick_of_waiting hr hu hs hgo, hcount, ih hs hps]

/-! ### That host keeps its contract (R161) -/

/-- The host's turns at the given inputs, its Loader reporting no error. -/
def cleanTurns (ps : List PortIn) : List HostTurn := ps.map fun p => ⟨p, false⟩

/-- A stage that every one of the turns leads back to is where they end. -/
theorem HostStage.afterAll_of_stays {g : HostStage} {ts : List HostTurn} (h : ∀ t ∈ ts, g.after t = some g) :
    g.afterAll ts = some g := by
  induction ts with
  | nil => rfl
  | cons t ts ih =>
    obtain ⟨ht, hts⟩ := List.forall_mem_cons.mp h
    rw [HostStage.afterAll, ht, Option.bind_some, ih hts]

theorem HostStage.loading_afterAll_loads {loads : List PortIn}
    (h : ∀ p ∈ loads, p.rst = false ∧ p.run = false) :
    HostStage.loading.afterAll (cleanTurns loads) = some .loading := by
  refine afterAll_of_stays (List.forall_mem_map.mpr fun p hp => ?_)
  obtain ⟨hr, hu⟩ := h p hp
  simp [HostStage.after, hr, hu]

/-- Loading or running, a clean turn of the run is allowed and leaves the run going on. -/
theorem HostStage.after_of_run {g : HostStage} {p : PortIn} (hg : g = .loading ∨ g = .running)
    (hr : p.rst = false) (hu : p.run = true) (hl : p.ldEn = false) : g.after ⟨p, false⟩ = some .running := by
  rcases hg with rfl | rfl <;> simp [HostStage.after, hr, hu, hl]

theorem HostStage.isSome_loading_afterAll_runs {runs : List PortIn}
    (h : ∀ p ∈ runs, p.rst = false ∧ p.run = true ∧ p.ldEn = false) :
    (HostStage.loading.afterAll (cleanTurns runs)).isSome = true := by
  cases runs with
  | nil => rfl
  | cons p ps =>
    obtain ⟨⟨hr, hu, hl⟩, hps⟩ := List.forall_mem_cons.mp h
    have hstays : HostStage.running.afterAll (cleanTurns ps) = some .running := by
      refine afterAll_of_stays (List.forall_mem_map.mpr fun q hq => ?_)
      obtain ⟨hr, hu, hl⟩ := hps q hq
      exact after_of_run (.inr rfl) hr hu hl
    have hfirst : HostStage.loading.after ⟨p, false⟩ = some .running := after_of_run (.inl rfl) hr hu hl
    simp only [cleanTurns, List.map_cons, HostStage.afterAll, hfirst, Option.bind_some] at hstays ⊢
    rw [hstays]; rfl

/-- Reset, load, run, in this order, keeps the contract. -/
theorem hostKeepsContract_of_boot {r : PortIn} {loads runs : List PortIn} (hr : r.rst = true)
    (hloads : ∀ p ∈ loads, p.rst = false ∧ p.run = false)
    (hruns : ∀ p ∈ runs, p.rst = false ∧ p.run = true ∧ p.ldEn = false) :
    hostKeepsContract (⟨r, false⟩ :: (cleanTurns loads ++ cleanTurns runs)) = true := by
  rw [hostKeepsContract, HostStage.afterAll, HostStage.after_of_reset _ hr, Option.bind_some,
    HostStage.afterAll_append, HostStage.loading_afterAll_loads hloads, Option.bind_some]
  exact HostStage.isSome_loading_afterAll_runs hruns

/-- Settles O51: the reset turn gives the reset state, the load turns install the image there, which is `launch`,
and the turns of the run are the run loop from it. -/
theorem portTurnsAreTheLaunchedRun : Obligations.PortTurnsAreTheLaunchedRun := by
  intro s r loads runs hr hloads hruns
  have hdown : ∀ p ∈ loads, p.rst = false ∧ p.run = false := fun p hp => (hloads p hp).imp_right And.left
  have hup : ∀ p ∈ runs, p.rst = false ∧ p.run = true := fun p hp => (hruns p hp).imp_right And.left
  constructor
  · have hlaunch : portRun loads State.reset = launch (loadedImage loads) := portRun_loads State.reset_phase hloads
    have hfetch : (launch (loadedImage loads)).phase = .fetch := phase_installImage _ _
    rw [List.cons_append, portRun_cons, portTick_of_reset s hr, portRun_append, hlaunch]
    exact portRun_runs hfetch hup
  · rw [List.cons_append, List.map_cons, List.map_append]
    exact hostKeepsContract_of_boot hr hdown hruns

end Sys2Proof.Machine
end

section
/-! Decoding and encoding are inverse up to the operand bits that NOP, OUT and HLT ignore (30_encoding.md). -/

namespace Sys2Proof

/-! ### From an instruction to its byte and back (R71, R73, R81) -/

/-- The opcode map at an instruction's own opcode and operand is the instruction. -/
theorem opcodeMap_opcode (i : Instr) : (opcodeMap[i.opcode.toNat]'i.opcode.isLt) i.operandField = i := by
  cases i <;> rfl

theorem decodeByte_encode (i : Instr) : decodeByte (encode i) = i := by
  rw [encode, decodeByte_joinFields, opcodeMap_opcode]

theorem decodeBytes_encodeBytes_append (i : Instr) (rest : List Byte) :
    decodeBytes (encodeBytes i ++ rest) = .ok (i, rest) := by
  simp [encodeBytes, decodeBytes, decodeByte_encode]

/-! ### From a byte to its instruction and back (R75) -/

/-- Every row but those of NOP, OUT and HLT keeps the operand it is given. -/
theorem operandField_opcodeMap : ∀ (n : Fin 16) (x : Nibble), n.val ≠ 0 → n.val ≠ 5 → n.val ≠ 15 →
    (opcodeMap[n] x).operandField = x := by decide

/-- The rows of NOP, OUT and HLT drop it (D13). -/
theorem operandField_opcodeMap_of_ignored : ∀ (n : Fin 16) (x : Nibble),
    n.val = 0 ∨ n.val = 5 ∨ n.val = 15 → (opcodeMap[n] x).operandField = 0 := by decide

theorem operandField_decodeByte {b : Byte} (h0 : b.toNat / 16 ≠ 0) (h5 : b.toNat / 16 ≠ 5)
    (h15 : b.toNat / 16 ≠ 15) : (decodeByte b).operandField = operandOf b := by
  rw [← toNat_opcodeOf] at h0 h5 h15
  exact operandField_opcodeMap (opcodeOf b).toFin (operandOf b) h0 h5 h15

theorem operandField_decodeByte_of_ignored {b : Byte}
    (h : b.toNat / 16 = 0 ∨ b.toNat / 16 = 5 ∨ b.toNat / 16 = 15) : (decodeByte b).operandField = 0 := by
  rw [← toNat_opcodeOf] at h
  exact operandField_opcodeMap_of_ignored (opcodeOf b).toFin (operandOf b) h

theorem opcode_decodeByte (b : Byte) : (decodeByte b).opcode = opcodeOf b :=
  BitVec.eq_of_toNat_eq ((toNat_opcode_decodeByte b).trans (toNat_opcodeOf b).symm)

/-- Settles O1: an instruction is the map's row at its own fields, and a decoded byte keeps its opcode nibble, and
its operand nibble where the row has one. -/
theorem decodeAndEncodeAgree : Obligations.DecodeAndEncodeAgree := by
  refine ⟨decodeByte_encode, decodeBytes_encodeBytes_append, fun b h0 h5 h15 => ?_, fun b h => ?_⟩
  · rw [encode, opcode_decodeByte, operandField_decodeByte h0 h5 h15, joinFields_fields]
  · have hfields : (encode (decodeByte b)).toNat = b.toNat / 16 * 16 := by
      rw [toNat_encode, opcode_decodeByte, operandField_decodeByte_of_ignored h, toNat_opcodeOf]; rfl
    omega

/-! ### The rows and the worked encodings (R73, R80) -/

theorem decodeByte_of_nibble {b : Byte} {n : Nat} (hn : n < 16) (h : b.toNat / 16 = n) :
    decodeByte b = opcodeMap[n] (operandOf b) :=
  decodeByte_of_opcode hn ((toNat_opcodeOf b).trans h)

/-- Settles O3: each row is `decodeByte_of_nibble` at its opcode. -/
theorem opcodeNibbleSelectsTheInstruction : Obligations.OpcodeNibbleSelectsTheInstruction := by
  rintro b _ rfl
  refine ⟨?_, ?_, ?_, ?_, ?_, ?_, ?_, ?_, ?_, ?_, ?_, ?_, ?_, ?_, ?_, ?_⟩ <;>
    exact decodeByte_of_nibble (by decide)

/-- Settles O4: each of the six words is the canonical encoding of its instruction. -/
theorem workedEncodingsDecode : Obligations.WorkedEncodingsDecode :=
  ⟨decodeByte_encode (.lda 14), decodeByte_encode (.add 15), decodeByte_encode (.jc 4), decodeByte_encode .out,
    decodeByte_encode .hlt, decodeByte_encode (.undefined9 10)⟩

end Sys2Proof
end

section
/-! Memory as data (20_memory.md), and the image the host puts there: set_memory, launch, the placed word. -/

namespace Sys2Proof.Machine

open Sys2Proof.Safety

/-! ### Reading after writing (R51, R52) -/

theorem cellIndex_eq_cellIndex_iff (addr other : Int) :
    cellIndex other = cellIndex addr ↔ other % 16 = addr % 16 := by
  simp only [cellIndex, Config.memCells]; omega

theorem memRead_memWrite (m : Memory) (addr v other : Int) : memRead (memWrite m addr v) other =
    if other % 16 = addr % 16 then BitVec.ofInt 8 v else memRead m other := by
  simp only [memRead, memWrite, memLookup_memStore, cellIndex_eq_cellIndex_iff]

/-- Settles O6, by the two cases of `memRead_memWrite`; the byte stored is the value narrowed. -/
theorem memWriteThenMemRead : Obligations.MemWriteThenMemRead := by
  intro m addr v other
  refine ⟨fun h => ?_, fun h => ?_⟩
  · rw [memRead_memWrite, if_pos h]
    exact toNat_narrow v
  · rw [memRead_memWrite, if_neg h]

/-! ### A canonical memory is what it reads as (log entry 9) -/

/-- In a list of rising addresses, each entry is what its address reads as. -/
theorem memLookup_of_mem {m : Memory} (hm : m.Pairwise fun c d => c.1 < d.1) {c : Host.Cell} (hc : c ∈ m) :
    memLookup m c.1 = c.2 := by
  induction m with
  | nil => cases hc
  | cons d rest ih =>
    obtain ⟨hd, hrest⟩ := List.pairwise_cons.mp hm
    rcases List.mem_cons.mp hc with rfl | hc
    · simp [memLookup]
    · simp [memLookup, (hd c hc).ne, ih hrest hc]

/-- What does not read as an unlisted cell is listed. -/
theorem mem_of_memLookup_ne {m : Memory} {k : Nat} (h : memLookup m k ≠ Memory.unlisted) :
    (k, memLookup m k) ∈ m := by
  induction m with
  | nil => exact absurd rfl h
  | cons c rest ih =>
    by_cases hk : c.1 = k
    · simp [memLookup, ← hk]
    · simp only [memLookup, if_neg hk] at h ⊢
      exact List.mem_cons_of_mem c (ih h)

/-- An entry of a canonical memory stands in every memory that reads alike. -/
theorem mem_of_reads_alike {m m' : Memory} (hm : m.wf) (h : ∀ addr : Int, memRead m addr = memRead m' addr)
    {c : Host.Cell} (hc : c ∈ m) : c ∈ m' := by
  obtain ⟨hsorted, hentries⟩ := hm
  obtain ⟨hlt, hlisted⟩ := hentries c hc
  have hindex : cellIndex (c.1 : Int) = c.1 := by
    rw [cellIndex_eq_iff]
    simp only [Config.memCells] at hlt; omega
  have hread : memLookup m' c.1 = c.2 := by
    rw [← memLookup_of_mem hsorted hc]
    simpa only [memRead, hindex] using (h c.1).symm
  have hmem : (c.1, memLookup m' c.1) ∈ m' := mem_of_memLookup_ne (hread ▸ hlisted)
  rwa [hread] at hmem

/-- Settles O7: the two lists have the same entries, and both are in rising order. -/
theorem canonicalMemoriesReadingAlikeAreEqual : Obligations.CanonicalMemoriesReadingAlikeAreEqual := by
  intro m m' hm hm' h
  have hirrefl : Std.Irrefl fun c d : Host.Cell => c.1 < d.1 := ⟨fun c => lt_irrefl c.1⟩
  exact hm.1.eq_of_mem_iff hm'.1
    fun c => ⟨mem_of_reads_alike hm h, mem_of_reads_alike hm' fun addr => (h addr).symm⟩

/-! ### set_memory and the snapshot (R152, R154) -/

theorem cells_snapshot (s : State) {k : Nat} (hk : k < 16) :
    s.snapshot.cells[k] = memRead s.mem (k : Int) := by
  simp [State.snapshot]

/-- Settles O43: the snapshot's cells are memory reads, so O6 says what they show. -/
theorem setMemoryThenSnapshotRoundTrips : Obligations.SetMemoryThenSnapshotRoundTrips := by
  intro addr v s k hk
  obtain ⟨hwritten, hothers⟩ := memWriteThenMemRead s.mem addr v k
  have hmod : (k : Int) % 16 = k := by omega
  rw [hmod] at hwritten hothers
  rw [cells_snapshot _ hk, cells_snapshot _ hk]
  exact ⟨hwritten, hothers, rfl, rfl, rfl⟩

/-! ### The launch state (R193, D25) -/

/-- The value that the image's last entry for a cell leaves there, if it has one. -/
def lastEntry (img : List (Int × Int)) (c : Nibble) : Option Byte :=
  (img.reverse.find? fun p => p.1 % 16 == (c.toNat : Int)).map fun p => BitVec.ofInt 8 p.2

theorem lastEntry_concat (img : List (Int × Int)) (p : Int × Int) (c : Nibble) :
    lastEntry (img ++ [p]) c =
      if (c.toNat : Int) = p.1 % 16 then some (BitVec.ofInt 8 p.2) else lastEntry img c := by
  by_cases h : (c.toNat : Int) = p.1 % 16
  · simp [lastEntry, h]
  · simp [lastEntry, h, Ne.symm h]

theorem installImage_concat (img : List (Int × Int)) (p : Int × Int) (s : State) :
    installImage (img ++ [p]) s = setMemory p.1 p.2 (installImage img s) := by
  simp [installImage]

theorem cell_installImage (img : List (Int × Int)) (s : State) (c : Nibble) :
    (installImage img s).cell c = (lastEntry img c).getD (s.cell c) := by
  induction img using List.reverseRecOn with
  | nil => rfl
  | append_singleton img p ih =>
    rw [installImage_concat, State.cell_setMemory, lastEntry_concat, ih]
    split <;> rfl

/-- Installing an image writes memory alone. -/
theorem installImage_setMem (img : List (Int × Int)) (s : State) (m : Memory) :
    (installImage img s).setMem m = s.setMem m := by
  induction img generalizing s with
  | nil => rfl
  | cons p img ih => exact ih (setMemory p.1 p.2 s)

theorem installImage_mem_wf (img : List (Int × Int)) {s : State} (h : s.mem.wf) :
    (installImage img s).mem.wf := by
  induction img generalizing s with
  | nil => exact h
  | cons p img ih => exact ih (memWrite_wf p.1 p.2 h)

theorem launch_mem_wf (img : List (Int × Int)) : (launch img).mem.wf := installImage_mem_wf img reset_mem_wf

/-- In FETCH the invariant says of the memory that it is canonical, and no more. -/
theorem boundaryInv_of_fetch {s : State} (h : s.phase = .fetch) (hm : s.mem.wf) : BoundaryInv s := by
  refine ⟨hm, ?_, ?_, ?_, ?_, ?_⟩ <;> simp [h]

/-- Settles O44, from what installing an image does to the cells, to the rest of the state and to the form of
memory. -/
theorem launchIsResetWithTheImage : Obligations.LaunchIsResetWithTheImage :=
  fun img => ⟨cell_installImage img State.reset, installImage_setMem img State.reset [],
    boundaryInv_of_fetch (phase_installImage img State.reset) (launch_mem_wf img)⟩

/-- Settles O17: reset is in FETCH, with a canonical memory. -/
theorem boundaryInvariantHoldsAtReset : Obligations.BoundaryInvariantHoldsAtReset :=
  boundaryInv_of_fetch State.reset_phase reset_mem_wf

/-! ### The run is a function of the cells (R162) -/

/-- Any integer address reads one of the sixteen cells (R51). -/
theorem memRead_eq_cell (s : State) (addr : Int) : memRead s.mem addr = s.cell (BitVec.ofInt 4 addr) := by
  have hindex : cellIndex addr = cellIndex ((BitVec.ofInt 4 addr).toNat : Int) := by
    simp only [BitVec.toNat_ofInt, cellIndex, Config.memCells]; omega
  rw [State.cell, memRead, hindex, memRead]

theorem mem_eq_of_sameCells {s t : State} (hs : s.mem.wf) (ht : t.mem.wf) (h : SameCells s t) :
    s.mem = t.mem :=
  canonicalMemoriesReadingAlikeAreEqual _ _ hs ht fun addr => by
    rw [memRead_eq_cell s, memRead_eq_cell t, h]

/-- Settles O45: launch states that read alike are the same state. -/
theorem runDependsOnTheImageAlone : Obligations.RunDependsOnTheImageAlone := by
  intro img img' h n
  have hmem : (launch img).mem = (launch img').mem :=
    mem_eq_of_sameCells (launch_mem_wf img) (launch_mem_wf img') h
  have hlaunch : launch img = launch img' :=
    calc launch img = State.reset.setMem (launch img).mem := installImage_setMem img State.reset _
      _ = State.reset.setMem (launch img').mem := by rw [hmem]
      _ = launch img' := (installImage_setMem img' State.reset _).symm
  rw [hlaunch]

/-! ### The placed word (log entry 14) -/

theorem byte_ofNat_mod (w : Nat) : BitVec.ofNat 8 (w % 2 ^ 8) = BitVec.ofNat 8 w := by
  apply BitVec.eq_of_toNat_eq; simp

/-- A table word of eight bits is one byte. -/
theorem decodeTableWord_eight (w : Nat) : decodeTableWord 8 w = some (decodeByte (BitVec.ofNat 8 w)) := by
  have hbytes : tableWordBytes 8 w = [BitVec.ofNat 8 w] := by
    have hone : List.range (max 1 (8 / 8)) = [0] := rfl
    rw [tableWordBytes, hone, List.map_singleton, Nat.mul_zero, Nat.pow_zero, Nat.div_one, byte_ofNat_mod]
  rw [decodeTableWord, hbytes]; rfl

theorem withFetchWord_eight (s : State) (w : Nat) :
    s.withFetchWord 8 w = (s.storeCell s.pc (BitVec.ofNat 8 w)).setPhase .fetch := by
  rw [State.withFetchWord, byte_ofNat_mod]

/-- Settles O50: the store puts the byte where FETCH reads, and the step decodes what it reads there. -/
theorem placedWordIsRunNext : Obligations.PlacedWordIsRunNext := by
  intro s w i h
  obtain rfl : decodeByte (BitVec.ofNat 8 w) = i := Option.some.inj ((decodeTableWord_eight w).symm.trans h)
  rw [withFetchWord_eight]
  have hcell : (s.storeCell s.pc (BitVec.ofNat 8 w)).cell s.pc = BitVec.ofNat 8 w := by
    rw [State.cell_storeCell, if_pos rfl]
  refine ⟨hcell, fun c hc => ?_, rfl, ?_⟩
  · rw [State.cell_setPhase, State.cell_storeCell, if_neg hc]
  · rw [step_of_fetch _ rfl, State.cell_setPhase, State.setPhase_pc, State.storeCell_pc, hcell]; rfl

end Sys2Proof.Machine
end

section
/-! The step (40_cycle.md): its phases composed, how it ends, the invariant it keeps, and the run loop. -/

namespace Sys2Proof.Machine

open Sys2Proof.Safety

/-! ### The phases compose to the step (R96, R97) -/

/-- FETCH is the first part of the step. -/
theorem step_fetchPhase {s : State} (h : s.phase = .fetch) : step (fetchPhase s) = step s := by
  have hdecode : (fetchPhase s).phase = .decode := rfl
  simp only [step, instructionStep, h, hdecode]

/-- From DECODE on, the step does what EXECUTE does after it (log entry 1). -/
theorem step_decodePhase {s : State} (h : s.phase = .decode) : step (decodePhase s) = step s := by
  have hexecute : (decodePhase s).phase = .execute := rfl
  simp only [step, instructionStep, h, hexecute]

theorem phaseStep_eq_step_of_execute {s : State} (h : s.phase = .execute) : phaseStep s = step s := by
  simp only [phaseStep, step, instructionStep, h]

/-- Settles O12: each phase transition is a part of the step that the step from its result leaves out. -/
theorem phaseTransitionsComposeToTheStep : Obligations.PhaseTransitionsComposeToTheStep := by
  refine ⟨fun s h => ?_, fun s h => ?_, fun s => phaseStep_eq_step_of_execute⟩
  · refine ⟨_, _, phaseStep_of_fetch s h, rfl, phaseStep_of_decode _ rfl, rfl, ?_⟩
    rw [phaseStep_eq_step_of_execute rfl, step_decodePhase rfl, step_fetchPhase h]
  · refine ⟨_, phaseStep_of_decode s h, rfl, ?_⟩
    rw [phaseStep_eq_step_of_execute rfl, step_decodePhase h]

/-- Settles O13: decoding bytes decodes the first, which is the byte the step runs. -/
theorem stepRunsTheDecodedInstruction : Obligations.StepRunsTheDecodedInstruction := by
  intro s i rest hs h
  obtain rfl : decodeByte (s.cell s.pc) = i := by simpa [decodeBytes] using h
  exact step_of_fetch s hs

/-! ### The step is total (R176, R203) -/

theorem exists_step_of_execute {s : State} (h : s.phase = .execute) : ∃ t, step s = .next t :=
  ⟨_, (phaseStep_eq_step_of_execute h).symm.trans ((phaseStep_of_execute s h).trans (exec_eq_next _ s))⟩

theorem exists_step_of_decode {s : State} (h : s.phase = .decode) : ∃ t, step s = .next t :=
  step_decodePhase h ▸ exists_step_of_execute rfl

/-- What the step answers, by phase: a next state, or in a terminal phase a fault. -/
theorem exists_step_or_fault (s : State) :
    (∃ t, step s = .next t) ∨ (s.phase = .halted ∨ s.phase = .faulted) ∧ ∃ r, step s = .fault r := by
  cases h : s.phase with
  | fetch => exact .inl ⟨_, step_eq_next_of_fetch h⟩
  | decode => exact .inl (exists_step_of_decode h)
  | execute => exact .inl (exists_step_of_execute h)
  | halted => exact .inr ⟨.inl rfl, _, step_of_halted h⟩
  | faulted => exact .inr ⟨.inr rfl, _, step_of_faulted h⟩

/-- Settles O14, by `exists_step_or_fault`; `phase_of_step` says which phase the next state is in. -/
theorem stepIsTotalOutsideTheTerminalPhases : Obligations.StepIsTotalOutsideTheTerminalPhases := by
  refine ⟨fun s hh hf => ?_, fun s r hr => ?_⟩
  · rcases exists_step_or_fault s with ⟨t, ht⟩ | ⟨hterminal, -⟩
    · exact ⟨t, ht, phase_of_step ht⟩
    · exact absurd hterminal (not_or.mpr ⟨hh, hf⟩)
  · rcases exists_step_or_fault s with ⟨t, ht⟩ | ⟨-, f, hf⟩
    · cases ht.symm.trans hr
    · cases hf.symm.trans hr

/-! ### The opcode decides how the step ends (R76, R94) -/

theorem nextPhase_eq_halted_iff (op : Nibble) : nextPhase op = .halted ↔ op.toNat = 15 := by
  unfold nextPhase; split_ifs <;> simp [*]

theorem nextPhase_eq_faulted_iff (op : Nibble) :
    nextPhase op = .faulted ↔ 9 ≤ op.toNat ∧ op.toNat ≤ 14 := by
  unfold nextPhase; split_ifs <;> simp [*]

theorem nextPhase_eq_fetch_iff (op : Nibble) : nextPhase op = .fetch ↔ op.toNat ≤ 8 := by
  have := op.isLt
  unfold nextPhase
  split_ifs
  all_goals
    simp only [true_iff, false_iff]
    omega

/-- The phase a step from FETCH ends in is that of the opcode nibble of the byte fetched. -/
theorem phase_of_step_of_fetch {s t : State} (hs : s.phase = .fetch) (h : step s = .next t) :
    t.phase = nextPhase (opcodeOf (s.cell s.pc)) := by
  obtain rfl := next_inj ((step_eq_next_of_fetch hs).symm.trans h)
  rw [phase_execEffect, opcode_decodeByte]

/-- Settles O18: the three ranges are those of the opcode nibble in `nextPhase`. -/
theorem fetchedByteDecidesHowTheStepEnds : Obligations.FetchedByteDecidesHowTheStepEnds := by
  intro s t hs h
  rw [phase_of_step_of_fetch hs h, nextPhase_eq_fetch_iff, nextPhase_eq_faulted_iff, nextPhase_eq_halted_iff,
    toNat_opcodeOf]
  have := (s.cell s.pc).isLt
  omega

/-! ### The invariant (R25, R28, R99) -/

theorem decoded_mar (s : State) : (decoded s).mar = s.pc := by rw [decoded_eq]; rfl

theorem decoded_ir (s : State) : (decoded s).ir = s.cell s.pc := by rw [decoded_eq]; rfl

theorem decoded_mem (s : State) : (decoded s).mem = s.mem := by rw [decoded_eq]; rfl

/-- EXECUTE never writes IR (R25). -/
theorem execEffect_ir (i : Instr) (s : State) : (execEffect i s).ir = s.ir := by
  cases i <;> rfl

/-- HLT and the undefined opcodes write `PHASE` alone (R175). -/
theorem execEffect_of_nine_le {i : Instr} (s : State) (h : 9 ≤ i.opcode.toNat) :
    execEffect i s = s.setPhase (nextPhase i.opcode) := by
  cases i with
  | hlt | undefined9 | undefined10 | undefined11 | undefined12 | undefined13 | undefined14 => rfl
  | _ => simp [Instr.opcode] at h

theorem execEffect_mem_wf (i : Instr) {s : State} (h : s.mem.wf) : (execEffect i s).mem.wf := by
  cases i with
  | sta x => exact State.storeCell_wf x s.a h
  | _ => exact h

/-- A state that meets the invariant and has a next state is in FETCH. -/
theorem phase_eq_fetch_of_boundaryInv {s t : State} (hs : BoundaryInv s) (h : step s = .next t) :
    s.phase = .fetch := by
  obtain ⟨-, hdecode, hexecute, -⟩ := hs
  obtain ⟨hhalted, hfaulted⟩ := not_terminal_of_step h
  cases hp : s.phase with
  | fetch => rfl
  | decode => exact absurd hp hdecode
  | execute => exact absurd hp hexecute
  | halted => exact absurd hp hhalted
  | faulted => exact absurd hp hfaulted

/-- A step from FETCH that does not end in FETCH leaves the state FETCH and DECODE made, but for `PHASE`. -/
theorem eq_decoded_setPhase_of_step {s t : State} (hs : s.phase = .fetch) (h : step s = .next t)
    (ht : t.phase ≠ .fetch) : t = (decoded s).setPhase t.phase := by
  have hphase := phase_of_step_of_fetch hs h
  rw [hphase, ne_eq, nextPhase_eq_fetch_iff, ← opcode_decodeByte] at ht
  rw [hphase, ← opcode_decodeByte, ← execEffect_of_nine_le (decoded s) (by omega)]
  exact next_inj (h.symm.trans (step_eq_next_of_fetch hs))

/-- Settles O16: the step is from FETCH; IR holds the byte fetched, whose opcode nibble decides the phase, and a
step that ends the run leaves the state FETCH and DECODE made. -/
theorem boundaryInvariantIsKept : Obligations.BoundaryInvariantIsKept := by
  intro s t hinv h
  have hs : s.phase = .fetch := phase_eq_fetch_of_boundaryInv hinv h
  obtain ⟨hmem, -⟩ := hinv
  have ht : t = execEffect (decodeByte (s.cell s.pc)) (decoded s) :=
    next_inj (h.symm.trans (step_eq_next_of_fetch hs))
  have hphase : t.phase = nextPhase (opcodeOf t.ir) := by
    rw [phase_of_step_of_fetch hs h, ht, execEffect_ir, decoded_ir]
  have hbetween := phase_of_step h
  refine ⟨?_, ?_, ?_, fun hhalted => ?_, fun hfaulted => ?_, fun hend => ?_⟩
  · rw [ht]
    exact execEffect_mem_wf _ ((decoded_mem s).symm ▸ hmem)
  · intro hd; simp [hd] at hbetween
  · intro he; simp [he] at hbetween
  · exact (nextPhase_eq_halted_iff _).mp (hphase.symm.trans hhalted)
  · exact (nextPhase_eq_faulted_iff _).mp (hphase.symm.trans hfaulted)
  · rw [eq_decoded_setPhase_of_step hs h hend, decoded_eq]
    exact ⟨rfl, rfl⟩

/-! ### The run loop and its report (R98, R158) -/

theorem eq_payload_of_report {t : State} {r : Report} (h : t.report = some r) :
    t.phase = .halted ∧ r = .halt t.pc ∨ t.phase = .faulted ∧ r = .invalidInstruction t.ir := by
  unfold State.report at h
  split at h
  next hp => exact .inl ⟨hp, (Option.some.inj h).symm⟩
  next hp => exact .inr ⟨hp, (Option.some.inj h).symm⟩
  all_goals cases h

/-- A run of `n` steps from FETCH has either not ended, and stands in FETCH, or it has ended in a state with a
report, and further steps change nothing. -/
theorem runLoop_going_or_ended (n : Nat) {s : State} (hs : s.phase = .fetch) :
    (∃ t, runLoop n s = (t, none) ∧ t.phase = .fetch) ∨
      ∃ t r, t.report = some r ∧ ∀ k, runLoop (n + k) s = (t, some r) := by
  induction n generalizing s with
  | zero => exact .inl ⟨s, rfl, hs⟩
  | succ n ih =>
    have hstep := step_eq_next_of_fetch hs
    generalize execEffect (decodeByte (s.cell s.pc)) (decoded s) = u at hstep
    cases hrep : u.report with
    | some r => exact .inr ⟨u, r, hrep, fun k => by rw [Nat.add_right_comm]; simp [runLoop, hstep, hrep]⟩
    | none =>
      have hgo : ∀ k, runLoop (k + 1) s = runLoop k u := fun k => by simp [runLoop, hstep, hrep]
      simp only [Nat.add_right_comm n 1, hgo]
      exact ih (phase_eq_fetch_of_step_of_no_report hstep hrep)

/-- Settles O46, by the two cases of `runLoop_going_or_ended`. -/
theorem runEndsWithTheReportOfItsLastState : Obligations.RunEndsWithTheReportOfItsLastState := by
  intro n s hs
  rcases runLoop_going_or_ended n hs with ⟨t, hrun, ht⟩ | ⟨t, r, hrep, hended⟩
  · rw [hrun]
    exact ⟨fun _ => ht, fun r hr => absurd hr.symm (Option.some_ne_none r)⟩
  · have hrun : runLoop n s = (t, some r) := hended 0
    rw [hrun]
    refine ⟨fun hnone => absurd hnone (Option.some_ne_none r), fun r' hr => ?_⟩
    obtain rfl : r = r' := Option.some.inj hr
    exact ⟨eq_payload_of_report hrep, hended⟩

end Sys2Proof.Machine
end

section
/-! What the EXECUTE phase of the other instructions does (41_data_movement.md to 44_system.md). -/

namespace Sys2Proof.Machine

open Sys2Proof.Safety

/-! ### LDA and STA (R110, R111) -/

/-- Settles O20: LDA writes `MAR`, `A` and `PHASE`. -/
theorem ldaLoadsTheAddressedCell : Obligations.LdaLoadsTheAddressedCell := fun x s =>
  ⟨_, exec_eq_next (.lda x) s, rfl, rfl, rfl, rfl, rfl, rfl, rfl, rfl, fun _ => rfl⟩

/-- Settles O21: `cell_execEffect_sta` says what the cells hold, and STA writes `MAR` and `PHASE` besides. -/
theorem staStoresInTheAddressedCellOnly : Obligations.StaStoresInTheAddressedCellOnly := by
  intro x s
  have hcell := cell_execEffect_sta x s
  exact ⟨_, exec_eq_next (.sta x) s, (hcell x).trans (if_pos rfl), fun c hc => (hcell c).trans (if_neg hc),
    rfl, rfl, rfl, rfl, rfl, rfl, rfl, rfl⟩

/-! ### ADD and SUB in numbers (R120, R121) -/

theorem toNat_narrow_exactSum (a m : Byte) :
    (narrow (exactSum a m)).toNat = (a.toNat + m.toNat) % 256 := by
  rw [narrow_exactSum, BitVec.toNat_add]

/-- The two results of ADD are the exact sum in two parts (R123). -/
theorem narrow_add_carryOfSum (a m : Byte) :
    (narrow (exactSum a m)).toNat + 256 * (carryOfSum (exactSum a m)).toNat = a.toNat + m.toNat := by
  have := a.isLt; have := m.isLt
  rw [toNat_narrow_exactSum, carryOfSum_exactSum]
  by_cases h : 256 ≤ a.toNat + m.toNat
  · simp only [h, decide_true, Bool.toNat_true]; omega
  · simp only [h, decide_false, Bool.toNat_false]; omega

/-- The two results of SUB are the exact difference in two parts (R124). -/
theorem narrow_sub_carryOfDiff (a m : Byte) :
    ((narrow (exactDiff a m)).toNat : Int) - 256 * ((carryOfDiff (exactDiff a m)).toNat : Int) =
      (a.toNat : Int) - (m.toNat : Int) := by
  have := a.isLt; have := m.isLt
  rw [toNat_narrow, carryOfDiff_exactDiff, exactDiff]
  by_cases h : a.toNat < m.toNat
  · simp only [h, decide_true, Bool.toNat_true]; omega
  · simp only [h, decide_false, Bool.toNat_false]; omega

/-- Settles O23: ADD writes `MAR`, `B`, the two results of the sum and `PHASE`. -/
theorem addAddsTheCellAndRecordsTheCarry : Obligations.AddAddsTheCellAndRecordsTheCarry := by
  intro x s
  refine ⟨_, exec_eq_next (.add x) s, rfl, toNat_narrow_exactSum s.a (s.cell x), ?_, rfl, rfl, rfl, rfl, rfl,
    fun _ => rfl⟩
  simp [execEffect, carryOfSum_exactSum]

/-- Settles O24: SUB writes `MAR`, `B`, the two results of the difference and `PHASE`. -/
theorem subSubtractsTheCellAndRecordsTheBorrow : Obligations.SubSubtractsTheCellAndRecordsTheBorrow := by
  intro x s
  refine ⟨_, exec_eq_next (.sub x) s, rfl, toNat_narrow (exactDiff s.a (s.cell x)), ?_, rfl, rfl, rfl, rfl, rfl,
    fun _ => rfl⟩
  simp [execEffect, carryOfDiff_exactDiff]

/-! ### The laws of ADD and SUB (R123, R124) -/

theorem exactSum_comm (a m : Byte) : exactSum a m = exactSum m a := add_comm _ _

/-- The carry shows in the narrowed sum, which is then below either addend. -/
theorem carryOfSum_iff_narrow_lt (a m : Byte) :
    carryOfSum (exactSum a m) = true ↔ (narrow (exactSum a m)).toNat < a.toNat := by
  have := a.isLt; have := m.isLt
  rw [toNat_narrow_exactSum, carryOfSum_exactSum, decide_eq_true_iff]; omega

/-- The borrow shows in the narrowed difference, which is then above what was subtracted from. -/
theorem carryOfDiff_iff_lt_narrow (a m : Byte) :
    carryOfDiff (exactDiff a m) = true ↔ a.toNat < (narrow (exactDiff a m)).toNat := by
  have := a.isLt; have := m.isLt
  have := toNat_narrow (exactDiff a m)
  rw [carryOfDiff_exactDiff, decide_eq_true_iff]
  simp only [exactDiff] at this ⊢; omega

/-- Settles O25: the laws of the sum, for `A` and the cell, and the sum's symmetry. -/
theorem addLosesNothing : Obligations.AddLosesNothing := by
  refine ⟨fun x s t h => ?_, fun x s s' t t' h h' ha hm => ?_⟩
  · obtain rfl := eq_execEffect_of_exec h
    have hcell := carryOfSum_iff_narrow_lt (s.cell x) s.a
    rw [exactSum_comm] at hcell
    exact ⟨narrow_add_carryOfSum s.a (s.cell x), carryOfSum_iff_narrow_lt s.a (s.cell x), hcell⟩
  · obtain rfl := eq_execEffect_of_exec h
    obtain rfl := eq_execEffect_of_exec h'
    have hsum : exactSum s'.a (s'.cell x) = exactSum s.a (s.cell x) := by rw [ha, hm, exactSum_comm]
    exact ⟨congrArg narrow hsum, congrArg carryOfSum hsum⟩

/-- Subtracting an addend from the narrowed sum gives the other one back. -/
theorem narrow_exactDiff_exactSum (a m : Byte) : narrow (exactDiff (narrow (exactSum a m)) m) = a := by
  rw [narrow_exactDiff, narrow_exactSum, BitVec.add_sub_cancel]

/-- It borrows exactly when the sum carried. -/
theorem carryOfDiff_exactSum (a m : Byte) :
    carryOfDiff (exactDiff (narrow (exactSum a m)) m) = carryOfSum (exactSum a m) := by
  have hlt := carryOfSum_iff_narrow_lt m a
  rw [exactSum_comm] at hlt
  rw [carryOfDiff_exactDiff, Bool.eq_iff_iff, decide_eq_true_iff, hlt]

/-- Settles O26: the laws of the difference, for `A` and the cell, and of the difference after the sum. -/
theorem subLosesNothingAndUndoesAdd : Obligations.SubLosesNothingAndUndoesAdd := by
  refine ⟨fun x s t h => ?_, fun x s t u hadd hsub => ?_⟩
  · obtain rfl := eq_execEffect_of_exec h
    exact ⟨narrow_sub_carryOfDiff s.a (s.cell x), carryOfDiff_iff_lt_narrow s.a (s.cell x)⟩
  · obtain rfl := eq_execEffect_of_exec hadd
    obtain rfl := eq_execEffect_of_exec hsub
    exact ⟨narrow_exactDiff_exactSum s.a (s.cell x), carryOfDiff_exactSum s.a (s.cell x)⟩

/-! ### A jump to its own address (R130, R101) -/

/-- Settles O29, by induction on the steps: each leaves a state in which the same jump is about to run. -/
theorem jumpToItselfRepeatsForEver : Obligations.JumpToItselfRepeatsForEver := by
  intro n
  induction n with
  | zero => exact fun s hs _ => ⟨s, rfl, rfl, hs, rfl, rfl, rfl, rfl, fun _ => rfl⟩
  | succ n ih =>
    intro s hs hjmp
    have hstep : step s = .next (execEffect (.jmp s.pc) (decoded s)) := hjmp ▸ step_eq_next_of_fetch hs
    obtain ⟨t, hrun, hframe⟩ := ih (execEffect (.jmp s.pc) (decoded s)) rfl
      ((congrArg decodeByte (cell_decoded s s.pc)).trans hjmp)
    rw [decoded_eq] at hframe
    exact ⟨t, (run_succ_of_step n hstep).trans hrun, hframe⟩

/-! ### OUT, HLT and the undefined opcodes (R141 to R143) -/

/-- Settles O31: EXECUTE writes the output history and `PHASE`; over the whole step, FETCH adds its writes. -/
theorem outAppendsTheAccumulator : Obligations.OutAppendsTheAccumulator := by
  refine ⟨fun s => ⟨_, exec_eq_next .out s, ?_⟩, fun s h => ⟨_, step_of_aboutToRun (by decide) h, ?_⟩⟩
  · exact ⟨rfl, rfl, rfl, rfl, rfl, rfl, rfl, rfl, fun _ => rfl⟩
  · rw [decoded_eq]
    exact ⟨⟨rfl, rfl, rfl⟩, rfl, rfl, rfl, rfl, rfl, fun _ => rfl⟩

/-- Settles O32: EXECUTE writes `PHASE` alone, and the report reads the `PC` that FETCH incremented. -/
theorem hltHaltsAndReportsTheIncrementedPc : Obligations.HltHaltsAndReportsTheIncrementedPc := by
  refine ⟨fun s => ⟨_, exec_eq_next .hlt s, ?_⟩, fun s h => ⟨_, step_of_aboutToRun (by decide) h, ?_⟩⟩
  · exact ⟨rfl, rfl, rfl, rfl, rfl, rfl, rfl, rfl, fun _ => rfl⟩
  · rw [decoded_eq]
    exact ⟨⟨rfl, rfl, rfl⟩, rfl, rfl, rfl, rfl, rfl, rfl, fun _ => rfl⟩

theorem execEffect_of_undefined {i : Instr} (s : State) (h9 : 9 ≤ i.opcode.toNat) (h14 : i.opcode.toNat ≤ 14) :
    execEffect i s = s.setPhase .faulted := by
  rw [execEffect_of_nine_le s h9, nextPhase_of_undefined h9 h14]

/-- Settles O33: EXECUTE writes `PHASE` alone, and the report reads the byte that FETCH put in `IR`. -/
theorem undefinedOpcodesFaultAndReportTheByte : Obligations.UndefinedOpcodesFaultAndReportTheByte := by
  refine ⟨fun i x s hi => ?_, fun s n h h9 h14 => ?_⟩
  · have heffect : execEffect i s = s.setPhase .faulted := by
      rcases hi with rfl | rfl | rfl | rfl | rfl | rfl <;> rfl
    rw [exec_eq_next, heffect]
    exact ⟨_, rfl, rfl, rfl, rfl, rfl, rfl, rfl, rfl, rfl, fun _ => rfl⟩
  · obtain ⟨hs, hop⟩ := h
    have hopcode : (decodeByte (s.cell s.pc)).opcode.toNat = n := (toNat_opcode_decodeByte _).trans hop
    have hnibble : opcodeOf (s.cell s.pc) = BitVec.ofNat 4 n := congrArg (BitVec.ofNat 4) hop
    rw [step_eq_next_of_fetch hs, execEffect_of_undefined _ (hopcode.symm ▸ h9) (hopcode.symm ▸ h14), decoded_eq]
    exact ⟨_, rfl, ⟨rfl, rfl, rfl⟩, rfl, rfl, congrArg some hnibble, rfl, rfl, rfl, rfl, fun _ => rfl⟩

end Sys2Proof.Machine
end

section
/-! Who writes and who reads B, CARRY, PC, IR, MAR and the output history in EXECUTE (10_state.md), the address the
whole step leaves in MAR, and a store seen by the next FETCH. -/

namespace Sys2Proof.Machine

open Sys2Proof.Safety

/-! ### B (R22) -/

theorem writer_of_execEffect_b_ne {i : Instr} {s : State} (h : (execEffect i s).b ≠ s.b) :
    ∃ x, (i = .add x ∨ i = .sub x) ∧ (execEffect i s).b = s.cell x := by
  cases i with
  | add x => exact ⟨x, .inl rfl, rfl⟩
  | sub x => exact ⟨x, .inr rfl, rfl⟩
  | _ => exact absurd rfl h

/-- An instruction other than ADD and SUB commutes with putting another value in `B`. -/
theorem execEffect_setB_of_not_arith {i : Instr} (s : State) (v : Byte) (hi : ∀ x, i ≠ .add x ∧ i ≠ .sub x) :
    execEffect i (s.setB v) = (execEffect i s).setB v := by
  cases i with
  | add x => exact absurd rfl (hi x).1
  | sub x => exact absurd rfl (hi x).2
  | _ => rfl

/-- Settles O35: a case split on the instruction for the writers and for the rest; ADD and SUB overwrite `B`. -/
theorem scratchRegisterIsNeverAnInput : Obligations.ScratchRegisterIsNeverAnInput := by
  refine ⟨fun i s t h hne => ?_, fun x s v => ⟨rfl, rfl⟩, fun i s v hi => ⟨_, exec_eq_next i s, ?_⟩⟩
  · obtain rfl := eq_execEffect_of_exec h
    exact writer_of_execEffect_b_ne hne
  · rw [exec_eq_next, execEffect_setB_of_not_arith s v hi]

/-! ### CARRY (R26) -/

/-- An instruction other than ADD, SUB and JC commutes with putting another value in `CARRY`. -/
theorem execEffect_setCarry_of_not_user {i : Instr} (s : State) (v : Bool)
    (hi : ∀ x, i ≠ .add x ∧ i ≠ .sub x ∧ i ≠ .jc x) :
    execEffect i (s.setCarry v) = (execEffect i s).setCarry v := by
  cases i with
  | add x => exact absurd rfl (hi x).1
  | sub x => exact absurd rfl (hi x).2.1
  | jc x => exact absurd rfl (hi x).2.2
  | _ => rfl

/-- Settles O36: a case split on the instruction for the writers and for the rest; ADD and SUB overwrite
`CARRY`. -/
theorem carryIsReadByJcOnly : Obligations.CarryIsReadByJcOnly := by
  refine ⟨fun i s t h hne => ?_, fun x s v => ⟨rfl, rfl⟩, fun i s v hi => ⟨_, exec_eq_next i s, ?_⟩⟩
  · obtain rfl := eq_execEffect_of_exec h
    exact writer_of_execEffect_carry_ne hne
  · rw [exec_eq_next, execEffect_setCarry_of_not_user s v hi]

/-! ### PC, IR, MAR and the output history (R23, R25, R33) -/

/-- Settles O37, by `jump_of_execEffect_pc_ne`. -/
theorem onlyJumpsWritePcInExecute : Obligations.OnlyJumpsWritePcInExecute := by
  intro i s t h hne
  obtain rfl := eq_execEffect_of_exec h
  exact jump_of_execEffect_pc_ne hne

/-- Only a data access writes `MAR` in EXECUTE, and it writes its operand (D2). -/
theorem access_of_execEffect_mar_ne {i : Instr} {s : State} (h : (execEffect i s).mar ≠ s.mar) :
    i = .lda (execEffect i s).mar ∨ i = .add (execEffect i s).mar ∨ i = .sub (execEffect i s).mar ∨
      i = .sta (execEffect i s).mar := by
  cases i with
  | lda x => exact .inl rfl
  | add x => exact .inr (.inl rfl)
  | sub x => exact .inr (.inr (.inl rfl))
  | sta x => exact .inr (.inr (.inr rfl))
  | _ => exact absurd rfl h

theorem eq_out_of_execEffect_outLog_ne {i : Instr} {s : State} (h : (execEffect i s).outLog ≠ s.outLog) :
    i = .out := by
  by_contra hi
  rw [outLog_execEffect, if_neg hi, List.append_nil] at h
  exact h rfl

/-- Settles O38, one lemma for each of the three elements. -/
theorem executeKeepsIrMarAndOutputHistory : Obligations.ExecuteKeepsIrMarAndOutputHistory := by
  intro i s t h
  obtain rfl := eq_execEffect_of_exec h
  exact ⟨execEffect_ir i s, access_of_execEffect_mar_ne, eq_out_of_execEffect_outLog_ne⟩

/-- `MAR` after EXECUTE, by opcode: the four data accesses are the opcodes 1 to 4 (R24, D2). -/
theorem execEffect_mar (i : Instr) (s : State) : (execEffect i s).mar =
    if 1 ≤ i.opcode.toNat ∧ i.opcode.toNat ≤ 4 then i.operandField else s.mar := by
  cases i <;> rfl

/-- Settles O39: FETCH puts the instruction address in `MAR`, and a data access its operand after it. -/
theorem marIsTheLastAccessAddress : Obligations.MarIsTheLastAccessAddress := by
  intro s t hs h
  obtain rfl := next_inj ((step_eq_next_of_fetch hs).symm.trans h)
  rw [execEffect_mar, toNat_opcode_decodeByte, decoded_mar]
  refine ⟨fun hdata => ?_, fun hother => if_neg hother⟩
  rw [if_pos hdata, operandField_decodeByte (by omega) (by omega) (by omega)]

/-! ### A store and the next FETCH (R60, R199) -/

/-- Settles O40: IR still holds the STA byte, and the next step fetches from memory as the store left it. -/
theorem storeIsSeenByTheNextFetch : Obligations.StoreIsSeenByTheNextFetch := by
  intro s x hs hsta
  have hstep : step s = .next (execEffect (.sta x) (decoded s)) := hsta ▸ step_eq_next_of_fetch hs
  have hcell := cell_execEffect_sta x (decoded s)
  simp only [decoded_a, cell_decoded] at hcell
  refine ⟨_, hstep, (execEffect_ir _ _).trans (decoded_ir s), ?_, fun c hc => ?_, fun hx => ?_⟩
  · rw [hcell, if_pos rfl]
  · rw [hcell, if_neg hc]
  · have hpc : (execEffect (.sta x) (decoded s)).pc = x := (decoded_pc s).trans hx.symm
    rw [step_of_fetch _ rfl, hpc, hcell, if_pos rfl]; rfl

end Sys2Proof.Machine
end
